-- ==== Sys2Proof/Word.lean ====
section
/-! DEFINITION. The word types of the unit: a byte, the 32-bit command word and scalar, and a byte buffer. -/

namespace Sys2Proof

/-- A byte: 8 bits, an unsigned value 0 to 255 (00_scope.md section 5.1). -/
abbrev Byte := BitVec 8

/-- A 32-bit field of a request: `CW` and `ARG` (10_state.md R12). -/
abbrev Word := BitVec 32

/-- A buffer: a finite sequence of bytes together with its length; byte 0 is the first (20_memory.md R25). -/
abbrev Buffer := List Byte

end Sys2Proof
end

