-- ==== Sys2Proof/Config.lean ====
section
/-! DEFINITION. What is fixed when the unit is built (K, W, the constants that follow from them), the bounds of the
interface as functions of the open parameter LMAX, and the model's one free value. -/

namespace Sys2Proof.Config

/-- The number of dimensions of this hardware (00_scope.md R4). -/
abbrev K : Nat := 3

/-- The bits of a coordinate of this hardware (00_scope.md R4). -/
abbrev W : Nat := 32

/-- A coordinate lane: a W-bit unsigned value (10_state.md R12, 30_encoding.md R40). -/
abbrev Lane := BitVec W

/-- The length in bytes of a key and of a mask for `k` dimensions of `w` bits, ⌈k·w / 8⌉ (00_scope.md R5). -/
def keyLen (k w : Nat) : Nat := (k * w + 7) / 8

/-- KW = K·W, the number of meaningful bits of a key; here 96 (00_scope.md R5). -/
def KW : Nat := K * W

/-- KEYLEN, the length of a key and of a mask in bytes; here 12 (00_scope.md R5). -/
def KEYLEN : Nat := keyLen K W

/-- The pairs of K and W the spec admits (00_scope.md R6). -/
abbrev AdmittedKW (k w : Nat) : Prop := 1 ≤ k ∧ 1 ≤ w ∧ k * w ≤ 2 ^ 31 - 1

/-- The one constraint on LMAX, the largest length of an operand buffer, which the spec leaves open
(00_scope.md R7, 92_eei_decisions.md D4). Claims take LMAX as an argument (log 5). -/
abbrev AdmittedLMAX (lmax : Nat) : Prop := KEYLEN ≤ lmax

/-- RMAX = max(3·LMAX, 8·KEYLEN), the capacity of the result buffer (00_scope.md R7). -/
def rmax (lmax : Nat) : Nat := max (3 * lmax) (8 * KEYLEN)

/-- NCMAX, the largest coordinate count a request can carry (00_scope.md R7). -/
def NCMAX : Nat := 255

/-- FREE VALUE (log 2, DESIGN CHOICE). What a coordinate lane reads as that the record's list `x` does not carry. R12
gives a request exactly NC lanes, so no request of the hardware reads one; nothing constrains it. -/
opaque uncarriedLane (x : List Lane) (d : Nat) : Lane

end Sys2Proof.Config
end

