-- ==== Sys2Proof/Machine/Buffers.lean ====
section
/-! DEFINITION. The data operations of the unit over byte buffers and coordinates, each for any number of dimensions `k`
of any width `w` (00_scope.md R6), following the pseudocode of the command rules. -/

namespace Sys2Proof.Machine

/-- `bit(B, i)`: bit-in-byte index `i mod 8`, counted from the most significant bit, of byte `i div 8`
(20_memory.md R26). -/
def bit (b : Buffer) (i : Nat) : Bool := (b.getD (i / 8) 0#8).getMsbD (i % 8)

/-- `cbit(v, p)`: the bit of MSB-first position `p` of a coordinate, of weight 2^(W−1−p) (20_memory.md R27). -/
def cbit {w : Nat} (v : BitVec w) (p : Nat) : Bool := v.getMsbD p

/-- `zeros(n)`: n bytes 0x00 (00_scope.md section 5.2). -/
def zeros (n : Nat) : Buffer := List.replicate n 0x00#8

/-- `ones(n)`: n bytes 0xFF (00_scope.md section 5.2). -/
def ones (n : Nat) : Buffer := List.replicate n 0xFF#8

/-- `withbit1(B, i)`: the buffer with bit `i` forced to 1 and every other bit as before (00_scope.md section 5.2). -/
def withBit1 (b : Buffer) (i : Nat) : Buffer := b.modify (i / 8) fun v => v ||| (0x80#8 >>> (i % 8))

/-- The buffer with each bit of a list of positions forced to 1, one after the other. -/
def setBits (b : Buffer) (positions : List Nat) : Buffer := positions.foldl withBit1 b

/-- The dimension of key bit `i`, `i mod K` (40_interleaver.md section 1). -/
def dimOf (k i : Nat) : Nat := i % k

/-- The MSB-first position of key bit `i` in its coordinate, `i div K` (40_interleaver.md section 1). -/
def posOf (k i : Nat) : Nat := i / k

/-- The key of ENCODE: key bit i is the bit of MSB-first position `i div K` of coordinate `i mod K`; pad bits are 0
(40_interleaver.md R50, R55). -/
def interleave (k w : Nat) (x : Nat → BitVec w) : Buffer :=
  setBits (zeros (Config.keyLen k w)) ((List.range (k * w)).filter fun i => cbit (x (dimOf k i)) (posOf k i))

/-- Coordinate `d` of DECODE: every set key bit of the dimension puts its weight into the lane; pad bits are ignored
(40_interleaver.md R51, R55). -/
def deinterleave (k w : Nat) (key : Buffer) (d : Nat) : BitVec w :=
  ((List.range (k * w)).filter fun i => dimOf k i == d && bit key i).foldl
    (fun y i => y ||| (1#w <<< (w - 1 - posOf k i))) 0#w

/-- The mask whose leading `n` bits are 1 (41_prefixmask.md R56). -/
def prefixMask (k w n : Nat) : Buffer := setBits (zeros (Config.keyLen k w)) (List.range n)

/-- The character codes of RENDER: '1' 0x31, '0' 0x30, wildcard '*' 0x2A (41_prefixmask.md R59; 93 G1). -/
def renderChar (key : Buffer) (n i : Nat) : Byte :=
  if i < n then (if bit key i then 0x31#8 else 0x30#8) else 0x2A#8

/-- One character per bit of the key, the first `n` as digits (41_prefixmask.md R59). -/
def renderKey (k w : Nat) (key : Buffer) (n : Nat) : Buffer :=
  (List.range (8 * Config.keyLen k w)).map (renderChar key n)

/-- The bytewise complement, 8 bits wide, no carry between bytes (42_bitops.md R64). -/
def complement (b : Buffer) : Buffer := b.map fun v => ~~~v

/-- The bytewise conjunction (42_bitops.md R65). -/
def conjunction (b1 b2 : Buffer) : Buffer := List.zipWith (fun u v => u &&& v) b1 b2

/-- The bytewise disjunction (42_bitops.md R66). -/
def disjunction (b1 b2 : Buffer) : Buffer := List.zipWith (fun u v => u ||| v) b1 b2

/-- Three buffers end to end, on byte boundaries (42_bitops.md R68). -/
def join3 (b1 b2 b3 : Buffer) : Buffer := b1 ++ b2 ++ b3

end Sys2Proof.Machine
end

