-- ==== Sys2Proof/Syntax.lean ====
section
/-! DEFINITION. The ten commands with the operand fields of their command word, and the request and response records. -/

namespace Sys2Proof

/-- The fields of a command word beside the opcode and the reserved bits (30_encoding.md R37, R39, R40). -/
structure CwFields where
  /-- `PA`, CW[8]: operand slot A is present. -/
  pa : Bool
  /-- `PB`, CW[9]: operand slot B is present. -/
  pb : Bool
  /-- `PC`, CW[10]: operand slot C is present. -/
  pc : Bool
  /-- `NC`, CW[23:16]: the number of coordinate lanes, 0 to 255. -/
  nc : Nat
deriving DecidableEq, Repr

/-- The ten operations of the unit and nothing else (00_scope.md R2, 30_encoding.md R38): one constructor per row of the
opcode table, each with every operand field of its command word. -/
inductive Instr where
  /-- ENCODE, OP 0x01 (40_interleaver.md R50). -/
  | encode (f : CwFields)
  /-- DECODE, OP 0x02 (40_interleaver.md R51). -/
  | decode (f : CwFields)
  /-- MAKEMASK, OP 0x10 (41_prefixmask.md R56). -/
  | makeMask (f : CwFields)
  /-- MATCH, OP 0x11 (41_prefixmask.md R58). -/
  | matchPrefix (f : CwFields)
  /-- RENDER, OP 0x12 (41_prefixmask.md R59). -/
  | render (f : CwFields)
  /-- NOT, OP 0x20 (42_bitops.md R64). -/
  | bufNot (f : CwFields)
  /-- AND, OP 0x21 (42_bitops.md R65). -/
  | bufAnd (f : CwFields)
  /-- OR, OP 0x22 (42_bitops.md R66). -/
  | bufOr (f : CwFields)
  /-- SETBIT, OP 0x23 (42_bitops.md R67). -/
  | setBit (f : CwFields)
  /-- CONCAT, OP 0x24 (42_bitops.md R68). -/
  | concat (f : CwFields)
deriving DecidableEq, Repr

/-- The three operand slots of a request (10_state.md R12). -/
inductive Slot where
  | a | b | c
deriving DecidableEq, Repr

/-- The request record (10_state.md R12). The lengths `ALEN`, `BLEN`, `CLEN` are the lengths of the byte lists
(log 6). -/
structure Request where
  /-- `CW`, the command word. -/
  cw : Word
  /-- `ARG`, the scalar argument, two's complement (30_encoding.md R42). -/
  arg : Word
  /-- The bytes of operand slot A. -/
  a : Buffer
  /-- The bytes of operand slot B. -/
  b : Buffer
  /-- The bytes of operand slot C. -/
  c : Buffer
  /-- The coordinate lanes `X[0]` to `X[NC−1]`. -/
  x : List Config.Lane
deriving DecidableEq, Repr

/-- The response record (10_state.md R13). `RLEN` is the length of `r` (log 6). -/
structure Response where
  /-- `STATUS`, 0x00 for success, else the code of the one condition reported (30_encoding.md R46). -/
  status : BitVec 8
  /-- `R`, the result buffer. -/
  r : Buffer
  /-- `Y[0]` to `Y[K−1]`, the coordinates produced by DECODE. -/
  y : Vector Config.Lane Config.K
  /-- `FLAG`, the boolean produced by MATCH. -/
  flag : Bool
deriving DecidableEq, Repr

/-- The eight error conditions (60_exceptions.md R75 to R82). -/
inductive Condition where
  /-- ENCODE given a coordinate count other than K (R75). -/
  | invalidArity
  /-- DECODE or RENDER given a buffer that is not KEYLEN bytes long (R76). -/
  | outOfBandKeyLength
  /-- A prefix length outside [1, KW] (R77). -/
  | invalidPrefixLength
  /-- AND or OR given buffers of unequal length (R78). -/
  | lengthMismatch
  /-- SETBIT given a position outside the buffer (R79). -/
  | bitPositionOutOfRange
  /-- A buffer slot the command reads is absent (R80). -/
  | nullArgument
  /-- MATCH given a buffer shorter than the mask (R81). -/
  | bufferTooShort
  /-- The command word selects no operation (R82). -/
  | illegalCommand
deriving DecidableEq, Repr

end Sys2Proof
end

