-- ==== Sys2Proof/Machine/Flags.lean ====
section
/-! DEFINITION. The STATUS codes and the FLAG of a response. There are no condition codes (10_state.md R17). -/

namespace Sys2Proof.Machine

/-- STATUS 0x00, OK (30_encoding.md R46). -/
def statusOk : BitVec 8 := 0x00

/-- The STATUS code of a condition (30_encoding.md R46). -/
def statusCode : Condition → BitVec 8
  | .invalidArity => 0x01
  | .outOfBandKeyLength => 0x02
  | .invalidPrefixLength => 0x03
  | .lengthMismatch => 0x04
  | .bitPositionOutOfRange => 0x05
  | .nullArgument => 0x06
  | .bufferTooShort => 0x07
  | .illegalCommand => 0x80

/-- The FLAG of MATCH: every masked byte of the candidate `cand` equals the corresponding byte of the prefix `pre`, over
the KEYLEN bytes of the mask; only the candidate is masked (41_prefixmask.md R58). -/
def matchFlag (k w : Nat) (pre : Buffer) (n : Nat) (cand : Buffer) : Bool :=
  (List.range (Config.keyLen k w)).all fun j =>
    (cand.getD j 0#8 &&& (prefixMask k w n).getD j 0#8) == pre.getD j 0#8

end Sys2Proof.Machine
end

