-- ==== Sys2Proof/Decode.lean ====
section
/-! DEFINITION. The decoder of the 32-bit command word, total and rejecting by name, and the encoder. -/

namespace Sys2Proof

/-- `OP`, CW[7:0] (30_encoding.md R37). -/
def cwOp (cw : Word) : BitVec 8 := cw.extractLsb' 0 8

/-- `RSV0`, CW[15:11] (30_encoding.md R37, R41). -/
def cwRsv0 (cw : Word) : BitVec 5 := cw.extractLsb' 11 5

/-- `RSV1`, CW[31:24] (30_encoding.md R37, R41). -/
def cwRsv1 (cw : Word) : BitVec 8 := cw.extractLsb' 24 8

/-- `PA`, `PB`, `PC` and `NC` of a command word (30_encoding.md R37). -/
def cwFields (cw : Word) : CwFields :=
  { pa := cw.getLsbD 8, pb := cw.getLsbD 9, pc := cw.getLsbD 10, nc := (cw.extractLsb' 16 8).toNat }

/-- Why a command word selects no operation (30_encoding.md R47): the decoder's two rejections, by name. Both are
answered with `IllegalCommand`; where both hold the reserved bit is named (log 10). -/
inductive Reject where
  /-- A bit of `RSV0` or `RSV1` is 1 (R41). -/
  | reservedBitSet
  /-- `OP` is none of the ten opcodes (R38). -/
  | unassignedOpcode
deriving DecidableEq, Repr

/-- The opcode map (30_encoding.md R38). -/
def decodeOp (op : BitVec 8) (f : CwFields) : Option Instr :=
  if op = 0x01 then some (.encode f)
  else if op = 0x02 then some (.decode f)
  else if op = 0x10 then some (.makeMask f)
  else if op = 0x11 then some (.matchPrefix f)
  else if op = 0x12 then some (.render f)
  else if op = 0x20 then some (.bufNot f)
  else if op = 0x21 then some (.bufAnd f)
  else if op = 0x22 then some (.bufOr f)
  else if op = 0x23 then some (.setBit f)
  else if op = 0x24 then some (.concat f)
  else none

/-- The decoder: reserved bits must be zero, then `OP` selects the command (30_encoding.md R38, R41, R47). -/
def decode (cw : Word) : Except Reject Instr :=
  if cwRsv0 cw ≠ 0 ∨ cwRsv1 cw ≠ 0 then .error .reservedBitSet
  else match decodeOp (cwOp cw) (cwFields cw) with
    | some i => .ok i
    | none => .error .unassignedOpcode

/-- The opcode of a command (30_encoding.md R38). -/
def opcode : Instr → BitVec 8
  | .encode _ => 0x01
  | .decode _ => 0x02
  | .makeMask _ => 0x10
  | .matchPrefix _ => 0x11
  | .render _ => 0x12
  | .bufNot _ => 0x20
  | .bufAnd _ => 0x21
  | .bufOr _ => 0x22
  | .setBit _ => 0x23
  | .concat _ => 0x24

/-- The operand fields a command carries. -/
def Instr.fields : Instr → CwFields
  | .encode f => f
  | .decode f => f
  | .makeMask f => f
  | .matchPrefix f => f
  | .render f => f
  | .bufNot f => f
  | .bufAnd f => f
  | .bufOr f => f
  | .setBit f => f
  | .concat f => f

/-- A command word from its opcode and fields, written from bit 31 down as the opcode table's encoding strings
`00000000nnnnnnnn00000cba` and the opcode (30_encoding.md R37). -/
def encodeFields (op : BitVec 8) (f : CwFields) : Word :=
  0#8 ++ BitVec.ofNat 8 f.nc ++ 0#5 ++ BitVec.ofBool f.pc ++ BitVec.ofBool f.pb ++ BitVec.ofBool f.pa ++ op

/-- The encoder: the command word of a command (30_encoding.md R37, R38). -/
def encode (i : Instr) : Word := encodeFields (opcode i) i.fields

/-- The mask of the decoder's test: `OP`, `RSV0` and `RSV1` (30_encoding.md R38). -/
def opcodeMask : Word := 0xFF00F8FF

/-- The decoder on the bits of an opcode-table row. The command word is a number, not bytes (20_memory.md R28), and the
table numbers its bits as R37 does, so `w` is the command word; bits above `nbits` are 0 (log 9). -/
def decodeTableWord (nbits w : Nat) : Option Instr :=
  match decode (BitVec.ofNat 32 (w % 2 ^ nbits)) with
  | .ok i => some i
  | .error _ => none

end Sys2Proof
end

