-- ==== Sys2Proof/Machine/Operands.lean ====
section
/-! DEFINITION. Reading the operands of a request: slots, lanes, the scalar, and which of them each command reads. -/

namespace Sys2Proof.Machine

/-- The present bit of a slot (30_encoding.md R39). -/
def present (f : CwFields) : Slot → Bool
  | .a => f.pa
  | .b => f.pb
  | .c => f.pc

/-- The bytes in a slot of a request (10_state.md R12). -/
def slotBytes (q : Request) : Slot → Buffer
  | .a => q.a
  | .b => q.b
  | .c => q.c

/-- The buffer operand in a slot: none when the slot is absent, whose length and bytes are then never read
(10_state.md R12, 30_encoding.md R39). A present empty buffer is not absent. -/
def operand (f : CwFields) (q : Request) (slot : Slot) : Option Buffer :=
  if present f slot then some (slotBytes q slot) else none

/-- Lane `d` of a request; a free value where the record carries none (10_state.md R12; log 2). -/
def lane (q : Request) (d : Nat) : Config.Lane := (q.x[d]?).getD (Config.uncarriedLane q.x d)

/-- `sext_32(ARG)`: the scalar as a mathematical integer (30_encoding.md R42). -/
def scalar (q : Request) : Int := q.arg.toInt

/-- A scalar as a prefix length: none outside [1, K·W] (41_prefixmask.md R56, R58, R59; 60_exceptions.md R77). -/
def prefixLength (k w : Nat) (n : Int) : Option Nat :=
  if n < 1 ∨ ((k * w : Nat) : Int) < n then none else some n.toNat

/-- A scalar as a bit position of a buffer of `len` bytes: none outside [0, 8·len) (42_bitops.md R67;
60_exceptions.md R79). -/
def bitPosition (len : Nat) (n : Int) : Option Nat :=
  if n < 0 ∨ ((8 * len : Nat) : Int) ≤ n then none else some n.toNat

/-- The request fields a command reads, one row of the table of 30_encoding.md R44. -/
structure ReadSet where
  a : Bool
  b : Bool
  c : Bool
  arg : Bool
  lanes : Bool
deriving DecidableEq, Repr

/-- The table of 30_encoding.md R44. -/
def readSet : Instr → ReadSet
  | .encode _ => ⟨false, false, false, false, true⟩
  | .decode _ => ⟨true, false, false, false, false⟩
  | .makeMask _ => ⟨false, false, false, true, false⟩
  | .matchPrefix _ => ⟨true, true, false, true, false⟩
  | .render _ => ⟨true, false, false, true, false⟩
  | .bufNot _ => ⟨true, false, false, false, false⟩
  | .bufAnd _ => ⟨true, true, false, false, false⟩
  | .bufOr _ => ⟨true, true, false, false, false⟩
  | .setBit _ => ⟨true, false, false, true, false⟩
  | .concat _ => ⟨true, true, true, false, false⟩

end Sys2Proof.Machine
end

