-- ==== Sys2Proof/Machine/State.lean ====
section
/-! DEFINITION. The state of the machine: the traffic at the unit's ports, since the unit itself keeps nothing
(10_state.md R10); the reasons a step can stop; and the state after reset. -/

namespace Sys2Proof.Machine

/-- The unit owns no state that lasts from one transaction to the next (10_state.md R10, R15 to R20), so the state of
the machine is what stands at its ports (log 1). -/
structure State where
  /-- The requests issued and not yet answered, oldest first (20_memory.md R33, 70_reset_and_hazards.md R90). -/
  requests : List Request
  /-- The responses given and not yet taken by the host, oldest first (20_memory.md R33). -/
  responses : List Response
deriving DecidableEq, Repr

/-- Why a transaction cannot take place. No condition of the spec is here: an error condition is answered with a
STATUS code (60_exceptions.md R84). -/
inductive Fault where
  /-- Raised by a meaning called where no request stands at the port; `step` never raises it. Safe: the model stops
  (log 3). -/
  | noRequest
deriving DecidableEq, Repr

/-- Why an instruction has no meaning. -/
inductive Refusal where
  /-- Raised by an arm of `exec` whose instruction is not modelled yet; no arm raises it. Safe: the model stops. -/
  | notModelled (mnemonic : String)
deriving DecidableEq, Repr

/-- The machine right after reset: no transaction in flight (10_state.md R21), no response given yet (log 4). There is
nothing else to initialise (70_reset_and_hazards.md R90). -/
def State.reset : State := { requests := [], responses := [] }

end Sys2Proof.Machine
end

