-- ==== Sys2Proof/Machine/Ops.lean ====
section
/-! DEFINITION. The operations over the ports: the responses a command can give, raising an error condition (the unit's
only form of exception), one transaction, and what the host can do to the ports. -/

namespace Sys2Proof.Machine

/-- Every response field zero: what a rule does not write (10_state.md R13). -/
def zeroResponse : Response := { status := statusOk, r := [], y := Vector.replicate Config.K 0#32, flag := false }

/-- Success with a result buffer (10_state.md R13). -/
def okBuffer (b : Buffer) : Response := { zeroResponse with r := b }

/-- Success with K coordinates (10_state.md R13). -/
def okLanes (y : Nat → Config.Lane) : Response := { zeroResponse with y := Vector.ofFn fun d => y d.val }

/-- Success with the boolean of MATCH (10_state.md R13). -/
def okFlag (f : Bool) : Response := { zeroResponse with flag := f }

/-- `raise E`: TAKING AN EXCEPTION. The whole reaction is the response, its STATUS the condition's code and every other
field zero; no state is saved, no mode changes, no control is transferred, so there is nothing to return from
(60_exceptions.md R84, R85). -/
def raise (e : Condition) : Response := { zeroResponse with status := statusCode e }

/-- The request at the head of the port, the next one to be answered (20_memory.md R33). -/
def currentRequest (s : State) : Option Request := s.requests.head?

/-- Answer the oldest request: it leaves the port and its response comes behind those given before
(20_memory.md R33). -/
def State.answer (s : State) (rsp : Response) : State :=
  { requests := s.requests.tail, responses := s.responses ++ [rsp] }

/-- One transaction: the unit takes the oldest request and gives one response, atomically (10_state.md R22). -/
def transact (f : Request → Response) (s : State) : Host.Outcome State Fault Refusal :=
  match currentRequest s with
  | some q => .next (s.answer (f q))
  | none => .fault .noRequest

/-- The transaction of an illegal request: no operand is read (30_encoding.md R47, 60_exceptions.md R82). -/
def transactIllegal (s : State) : Host.Outcome State Fault Refusal := transact (fun _ => raise .illegalCommand) s

/-- HOST: issue a request; it comes behind the requests in flight (20_memory.md R33). -/
def State.issue (s : State) (q : Request) : State := { s with requests := s.requests ++ [q] }

/-- HOST: take the oldest response (20_memory.md R33). -/
def State.takeResponse (s : State) : Option (Response × State) :=
  match s.responses with
  | [] => none
  | rsp :: rest => some (rsp, { s with responses := rest })

/-- HOST: assert reset. A request accepted and not yet answered is dropped without a response; nothing else changes
(70_reset_and_hazards.md R90). -/
def State.assertReset (s : State) : State := { s with requests := [] }

/-- A request record with a given command word whose operands are those of `q`; its lanes are cut or filled with zero
lanes to the NC the command word counts, so that the record is a request of R12 (log 8). -/
def requestWithCw (q : Request) (cw : Word) : Request :=
  { q with cw := cw, x := (List.range (cwFields cw).nc).map fun d => q.x.getD d 0#32 }

/-- A request with no operand: every buffer empty, `ARG` zero, no lane (log 8). -/
def blankRequest : Request := { cw := 0#32, arg := 0#32, a := [], b := [], c := [], x := [] }

/-- Put a command word into the oldest request, or issue a blank request with it where none is in flight (log 8). -/
def State.putCommand (s : State) (cw : Word) : State :=
  match s.requests with
  | [] => { s with requests := [requestWithCw blankRequest cw] }
  | q :: rest => { s with requests := requestWithCw q cw :: rest }

end Sys2Proof.Machine
end

