-- ==== Sys2Proof/Machine/BitOps.lean ====
section
/-! DEFINITION. The BitOps commands NOT, AND, OR, SETBIT and CONCAT (42_bitops.md). -/

namespace Sys2Proof.Machine

/-- The response of NOT (42_bitops.md R64). -/
def notResponse (f : CwFields) (q : Request) : Response :=
  match operand f q .a with
  | none => raise .nullArgument
  | some b => okBuffer (complement b)

/-- The response of AND: equal lengths or `LengthMismatch` (42_bitops.md R65). -/
def andResponse (f : CwFields) (q : Request) : Response :=
  match operand f q .a, operand f q .b with
  | some b1, some b2 =>
    if b1.length ≠ b2.length then raise .lengthMismatch else okBuffer (conjunction b1 b2)
  | _, _ => raise .nullArgument

/-- The response of OR: equal lengths or `LengthMismatch` (42_bitops.md R66). -/
def orResponse (f : CwFields) (q : Request) : Response :=
  match operand f q .a, operand f q .b with
  | some b1, some b2 =>
    if b1.length ≠ b2.length then raise .lengthMismatch else okBuffer (disjunction b1 b2)
  | _, _ => raise .nullArgument

/-- The response of SETBIT: the position must lie in the buffer (42_bitops.md R67). -/
def setBitResponse (f : CwFields) (q : Request) : Response :=
  match operand f q .a with
  | none => raise .nullArgument
  | some b =>
    match bitPosition b.length (scalar q) with
    | none => raise .bitPositionOutOfRange
    | some pos => okBuffer (withBit1 b pos)

/-- The response of CONCAT: all three slots present (42_bitops.md R68). -/
def concatResponse (f : CwFields) (q : Request) : Response :=
  match operand f q .a, operand f q .b, operand f q .c with
  | some b1, some b2, some b3 => okBuffer (join3 b1 b2 b3)
  | _, _, _ => raise .nullArgument

/-- NOT (42_bitops.md R64). -/
def execNot (f : CwFields) (s : State) : Host.Outcome State Fault Refusal := transact (notResponse f) s

/-- AND (42_bitops.md R65). -/
def execAnd (f : CwFields) (s : State) : Host.Outcome State Fault Refusal := transact (andResponse f) s

/-- OR (42_bitops.md R66). -/
def execOr (f : CwFields) (s : State) : Host.Outcome State Fault Refusal := transact (orResponse f) s

/-- SETBIT (42_bitops.md R67). -/
def execSetBit (f : CwFields) (s : State) : Host.Outcome State Fault Refusal := transact (setBitResponse f) s

/-- CONCAT (42_bitops.md R68). -/
def execConcat (f : CwFields) (s : State) : Host.Outcome State Fault Refusal := transact (concatResponse f) s

end Sys2Proof.Machine
end

