-- ==== Sys2Proof/Machine/Interleaver.lean ====
section
/-! DEFINITION. The Interleaver commands ENCODE and DECODE (40_interleaver.md). -/

namespace Sys2Proof.Machine

/-- The response of ENCODE: `NC ≠ K` is `InvalidArity`, else the key of the lanes (40_interleaver.md R50). -/
def encodeResponse (f : CwFields) (q : Request) : Response :=
  if f.nc ≠ Config.K then raise .invalidArity
  else okBuffer (interleave Config.K Config.W (lane q))

/-- The response of DECODE: the key must be present and exactly KEYLEN bytes long (40_interleaver.md R51). -/
def decodeResponse (f : CwFields) (q : Request) : Response :=
  match operand f q .a with
  | none => raise .nullArgument
  | some key =>
    if key.length ≠ Config.KEYLEN then raise .outOfBandKeyLength
    else okLanes (deinterleave Config.K Config.W key)

/-- ENCODE (40_interleaver.md R50). -/
def execEncode (f : CwFields) (s : State) : Host.Outcome State Fault Refusal := transact (encodeResponse f) s

/-- DECODE (40_interleaver.md R51). -/
def execDecode (f : CwFields) (s : State) : Host.Outcome State Fault Refusal := transact (decodeResponse f) s

end Sys2Proof.Machine
end

