-- ==== Sys2Proof/Machine/PrefixMask.lean ====
section
/-! DEFINITION. The PrefixMask commands MAKEMASK, MATCH and RENDER (41_prefixmask.md). -/

namespace Sys2Proof.Machine

/-- The response of MAKEMASK (41_prefixmask.md R56). -/
def makeMaskResponse (q : Request) : Response :=
  match prefixLength Config.K Config.W (scalar q) with
  | none => raise .invalidPrefixLength
  | some n => okBuffer (prefixMask Config.K Config.W n)

/-- The response of MATCH: slot A is the prefix, slot B the candidate; buffers longer than KEYLEN are accepted
(41_prefixmask.md R58, 90_conflicts.md C1, C2). -/
def matchResponse (f : CwFields) (q : Request) : Response :=
  match operand f q .a, operand f q .b with
  | some pre, some cand =>
    match prefixLength Config.K Config.W (scalar q) with
    | none => raise .invalidPrefixLength
    | some n =>
      if pre.length < Config.KEYLEN ∨ cand.length < Config.KEYLEN then raise .bufferTooShort
      else okFlag (matchFlag Config.K Config.W pre n cand)
  | _, _ => raise .nullArgument

/-- The response of RENDER: the key must be exactly KEYLEN bytes long (41_prefixmask.md R59). -/
def renderResponse (f : CwFields) (q : Request) : Response :=
  match operand f q .a with
  | none => raise .nullArgument
  | some key =>
    match prefixLength Config.K Config.W (scalar q) with
    | none => raise .invalidPrefixLength
    | some n =>
      if key.length ≠ Config.KEYLEN then raise .outOfBandKeyLength
      else okBuffer (renderKey Config.K Config.W key n)

/-- MAKEMASK (41_prefixmask.md R56); it reads none of the fields of its command word. -/
def execMakeMask (_f : CwFields) (s : State) : Host.Outcome State Fault Refusal := transact makeMaskResponse s

/-- MATCH (41_prefixmask.md R58). -/
def execMatch (f : CwFields) (s : State) : Host.Outcome State Fault Refusal := transact (matchResponse f) s

/-- RENDER (41_prefixmask.md R59). -/
def execRender (f : CwFields) (s : State) : Host.Outcome State Fault Refusal := transact (renderResponse f) s

end Sys2Proof.Machine
end

