-- ==== Sys2Proof/Machine/Dispatch.lean ====
section
/-! DEFINITION. One arm per constructor of Instr. -/

namespace Sys2Proof.Machine

/-- The meaning of each command, on the oldest request at the port. -/
def exec (i : Instr) (s : State) : Host.Outcome State Fault Refusal :=
  match i with
  | .encode f => Sys2Proof.Machine.execEncode f s
  | .decode f => Sys2Proof.Machine.execDecode f s
  | .makeMask f => Sys2Proof.Machine.execMakeMask f s
  | .matchPrefix f => Sys2Proof.Machine.execMatch f s
  | .render f => Sys2Proof.Machine.execRender f s
  | .bufNot f => Sys2Proof.Machine.execNot f s
  | .bufAnd f => Sys2Proof.Machine.execAnd f s
  | .bufOr f => Sys2Proof.Machine.execOr f s
  | .setBit f => Sys2Proof.Machine.execSetBit f s
  | .concat f => Sys2Proof.Machine.execConcat f s

end Sys2Proof.Machine
end

