-- ==== Sys2Proof/Machine/Step.lean ====
section
/-! DEFINITION. One step: the oldest request is decoded and answered. -/

namespace Sys2Proof.Machine

/-- One step is one transaction (10_state.md R22): the command word of the oldest request is decoded and its command
executed, or the request is answered as illegal (30_encoding.md R47). With no request at the port nothing happens
(log 3). -/
def step (s : State) : Host.Outcome State Fault Refusal :=
  match currentRequest s with
  | none => .next s
  | some q =>
    match decode q.cw with
    | .ok i => exec i s
    | .error _ => transactIllegal s

/-- The state whose next step runs the instruction of an opcode-table row: its command word stands in the oldest request
at the port. The host issues the program's requests from outside (10_state.md R16; log 8). -/
def State.withFetchWord (s : State) (nbits w : Nat) : State := s.putCommand (BitVec.ofNat 32 (w % 2 ^ nbits))

end Sys2Proof.Machine
end

