-- ==== Sys2Proof/Machine/CommandLine.lean ====
section
/-! DEFINITION. The textual form of a request and the host that issues it (30_encoding.md R45, R48, R49): command lines
as data, the assembler to canonical requests, the reader of the text, and one line run on the machine. The names are the
host's variables; the unit holds nothing (10_state.md R10). -/

namespace Sys2Proof.Machine

/-- A name the host keeps a result under (30_encoding.md R48). -/
abbrev HostName := List Char

/-- A buffer argument: a literal, `null`, or the result buffer `name.R` of an earlier line (30_encoding.md R48). -/
inductive BufferArg where
  | literal (b : Buffer)
  | null
  | resultOf (name : HostName)
deriving DecidableEq, Repr

/-- A coordinate argument: a number (30_encoding.md R48), or the coordinate `name.Y[d]` of an earlier line. That
`name.Y[d]` may stand as a coordinate argument is the model's choice: R48 lists a number alone and says only that
`name.Y[d]` names a result field and that the host copies results into later requests (log 11, DESIGN CHOICE). -/
inductive LaneArg where
  | number (v : Nat)
  | resultOf (name : HostName) (d : Nat)
deriving DecidableEq, Repr

/-- The ten command lines, with their arguments in the source's order (30_encoding.md R48). -/
inductive Command where
  | encode (xs : List LaneArg)
  | decode (a : BufferArg)
  | makeMask (n : Int)
  | matchPrefix (a : BufferArg) (n : Int) (b : BufferArg)
  | render (a : BufferArg) (n : Int)
  | bufNot (a : BufferArg)
  | bufAnd (a b : BufferArg)
  | bufOr (a b : BufferArg)
  | setBit (a : BufferArg) (n : Int)
  | concat (a b c : BufferArg)
deriving DecidableEq, Repr

/-- One line: an optional result name and a command (30_encoding.md R48). -/
structure CommandLine where
  name : Option HostName
  command : Command
deriving DecidableEq, Repr

/-- Why a line is no request. These are the assembler's, not the unit's: the unit never sees the line. -/
inductive AsmError where
  /-- The text is not of a form of R48. -/
  | badSyntax
  /-- A name no earlier line was named. -/
  | unknownName
  /-- The result named is of a line answered with an error, which has no result (70_reset_and_hazards.md R97). -/
  | failedResult
  /-- A coordinate of an earlier line that does not exist. -/
  | noSuchLane
  /-- A buffer longer than LMAX, which no request can carry (30_encoding.md R43; log 11). -/
  | bufferTooLong
  /-- A coordinate outside [0, 2^W − 1]. -/
  | coordinateOutOfRange
  /-- A scalar outside [−2^31, 2^31 − 1]. -/
  | scalarOutOfRange
  /-- More than NCMAX coordinates. -/
  | tooManyCoordinates
  /-- The machine gave no response to the request. -/
  | noResponse
deriving DecidableEq, Repr

/-- The results the host keeps, the latest first. -/
abbrev HostVars := List (HostName × Response)

/-- The result of an earlier line, its STATUS tested first: a response with an error carries no result
(70_reset_and_hazards.md R97). -/
def namedResult (vars : HostVars) (n : HostName) : Except AsmError Response :=
  match vars.lookup n with
  | some rsp => if rsp.status = statusOk then .ok rsp else .error .failedResult
  | none => .error .unknownName

/-- A buffer as the contents of a present slot; none longer than LMAX can be (30_encoding.md R43). That the assembler
refuses it is the model's choice (log 11, DESIGN CHOICE). -/
def slotOf (lmax : Nat) (b : Buffer) : Except AsmError (Option Buffer) :=
  if b.length ≤ lmax then .ok (some b) else .error .bufferTooLong

/-- A buffer argument as an operand slot: none is an absent slot (30_encoding.md R48, R39). -/
def resolveBuffer (lmax : Nat) (vars : HostVars) : BufferArg → Except AsmError (Option Buffer)
  | .literal b => slotOf lmax b
  | .null => .ok none
  | .resultOf n =>
    match namedResult vars n with
    | .ok rsp => slotOf lmax rsp.r
    | .error e => .error e

/-- A coordinate argument as a lane (30_encoding.md R48; `name.Y[d]`: log 11, DESIGN CHOICE). -/
def resolveLane (vars : HostVars) : LaneArg → Except AsmError Config.Lane
  | .number v => if v < 2 ^ Config.W then .ok (BitVec.ofNat Config.W v) else .error .coordinateOutOfRange
  | .resultOf n d =>
    match namedResult vars n with
    | .ok rsp =>
      match rsp.y.toList[d]? with
      | some v => .ok v
      | none => .error .noSuchLane
    | .error e => .error e

/-- All coordinate arguments, left to right. -/
def resolveLanes (vars : HostVars) : List LaneArg → Except AsmError (List Config.Lane)
  | [] => .ok []
  | x :: xs =>
    match resolveLane vars x, resolveLanes vars xs with
    | .ok v, .ok vs => .ok (v :: vs)
    | .error e, _ => .error e
    | _, .error e => .error e

/-- A scalar argument as `ARG` (30_encoding.md R42, R48). -/
def resolveScalar (n : Int) : Except AsmError Word :=
  if -(2 ^ 31) ≤ n ∧ n < 2 ^ 31 then .ok (BitVec.ofInt 32 n) else .error .scalarOutOfRange

/-- `name.FLAG`, the flag of an earlier line (30_encoding.md R48); none of a line answered with an error, which is not a
"no match" (70_reset_and_hazards.md R97). -/
def flagOf (vars : HostVars) (n : HostName) : Except AsmError Bool :=
  match namedResult vars n with
  | .ok rsp => .ok rsp.flag
  | .error e => .error e

/-- The canonical request of a command: a slot's present bit and bytes from its operand, every ignored slot absent with
length 0, `ARG = 0` and `NC = 0` when ignored (30_encoding.md R45). -/
def canonicalRequest (mk : CwFields → Instr) (a b c : Option Buffer) (arg : Word) (x : List Config.Lane) : Request :=
  { cw := encode (mk { pa := a.isSome, pb := b.isSome, pc := c.isSome, nc := x.length })
    arg := arg, a := a.getD [], b := b.getD [], c := c.getD [], x := x }

/-- The assembler for a unit with largest buffer length `lmax`: a command and the host's variables to the canonical
request (30_encoding.md R43, R44, R45, R48). -/
def assemble (lmax : Nat) (vars : HostVars) : Command → Except AsmError Request
  | .encode xs =>
    if Config.NCMAX < xs.length then .error .tooManyCoordinates
    else do
      let vs ← resolveLanes vars xs
      return canonicalRequest Instr.encode none none none 0#32 vs
  | .decode a => do
    let a ← resolveBuffer lmax vars a
    return canonicalRequest Instr.decode a none none 0#32 []
  | .makeMask n => do
    let n ← resolveScalar n
    return canonicalRequest Instr.makeMask none none none n []
  | .matchPrefix a n b => do
    let a ← resolveBuffer lmax vars a
    let n ← resolveScalar n
    let b ← resolveBuffer lmax vars b
    return canonicalRequest Instr.matchPrefix a b none n []
  | .render a n => do
    let a ← resolveBuffer lmax vars a
    let n ← resolveScalar n
    return canonicalRequest Instr.render a none none n []
  | .bufNot a => do
    let a ← resolveBuffer lmax vars a
    return canonicalRequest Instr.bufNot a none none 0#32 []
  | .bufAnd a b => do
    let a ← resolveBuffer lmax vars a
    let b ← resolveBuffer lmax vars b
    return canonicalRequest Instr.bufAnd a b none 0#32 []
  | .bufOr a b => do
    let a ← resolveBuffer lmax vars a
    let b ← resolveBuffer lmax vars b
    return canonicalRequest Instr.bufOr a b none 0#32 []
  | .setBit a n => do
    let a ← resolveBuffer lmax vars a
    let n ← resolveScalar n
    return canonicalRequest Instr.setBit a none none n []
  | .concat a b c => do
    let a ← resolveBuffer lmax vars a
    let b ← resolveBuffer lmax vars b
    let c ← resolveBuffer lmax vars c
    return canonicalRequest Instr.concat a b c 0#32 []

/-- A host and the machine it issues requests to. -/
structure HostSession where
  vars : HostVars
  machine : State
deriving DecidableEq, Repr

/-- One line of a program: assemble it, issue the request, let the unit answer, take the response and keep it under the
line's name (30_encoding.md R48, R49; 20_memory.md R33). -/
def runLine (lmax : Nat) (h : HostSession) (line : CommandLine) : Except AsmError HostSession :=
  match assemble lmax h.vars line.command with
  | .error e => .error e
  | .ok q =>
    match step (h.machine.issue q) with
    | .next s =>
      match s.takeResponse with
      | some (rsp, rest) =>
        match line.name with
        | some n => .ok { vars := (n, rsp) :: h.vars, machine := rest }
        | none => .ok { h with machine := rest }
      | none => .error .noResponse
    | _ => .error .noResponse

/-! ## The text of a line -/

/-- A blank between the parts of a line (log 11). -/
def isBlank (c : Char) : Bool := c == ' ' || c == '\t'

/-- Blanks taken off both ends. -/
def trimBlanks (t : List Char) : List Char := ((t.dropWhile isBlank).reverse.dropWhile isBlank).reverse

/-- The pieces between separators. -/
def splitOnChar (sep : Char) : List Char → List (List Char)
  | [] => [[]]
  | c :: cs =>
    match splitOnChar sep cs with
    | [] => [[c]]
    | p :: ps => if c == sep then [] :: p :: ps else (c :: p) :: ps

/-- The digits of a literal in the order of their values; of the letters the capital form (log 11). -/
def digitChars : List Char := "0123456789ABCDEF".toList

/-- The value of a digit in a base up to 16: its place among the digits of that base. -/
def digitValue (base : Nat) (c : Char) : Option Nat := (digitChars.take base).idxOf? c.toUpper

/-- The value of a nonempty string of digits, the most significant first. -/
def readNatural (base : Nat) (t : List Char) : Option Nat :=
  if t.isEmpty then none else t.foldlM (fun acc c => (digitValue base c).map (base * acc + ·)) 0

/-- A coordinate number, decimal or `0x` hexadecimal (30_encoding.md R48). -/
def readNumber : List Char → Option Nat
  | '0' :: 'x' :: t => readNatural 16 t
  | t => readNatural 10 t

/-- A scalar argument, a decimal integer (30_encoding.md R48). -/
def readScalar : List Char → Option Int
  | '-' :: t => (readNatural 10 t).map fun n => -(n : Int)
  | t => (readNatural 10 t).map fun n => (n : Int)

/-- A name: a letter, then letters, digits and underscores (log 11). -/
def readName (t : List Char) : Option HostName :=
  match t with
  | c :: cs => if c.isAlpha && cs.all fun d => d.isAlphanum || d == '_' then some t else none
  | [] => none

/-- The two-digit hexadecimal bytes of a literal, blanks between them (30_encoding.md R48). -/
def readBytes (pieces : List (List Char)) : Option Buffer :=
  (pieces.filter fun p => !p.isEmpty).mapM fun p =>
    if p.length = 2 then (readNatural 16 p).map (BitVec.ofNat 8) else none

/-- A buffer argument: `[b0 b1 ...]`, `null` or `name.R` (30_encoding.md R48). -/
def readBuffer (t : List Char) : Option BufferArg :=
  match t with
  | '[' :: rest =>
    match rest.reverse with
    | ']' :: body =>
      (readBytes (splitOnChar ' ' (body.reverse.map fun c => if isBlank c then ' ' else c))).map BufferArg.literal
    | _ => none
  | _ =>
    if t = "null".toList then some .null
    else match t.reverse with
      | 'R' :: '.' :: body => (readName body.reverse).map BufferArg.resultOf
      | _ => none

/-- A coordinate argument: a number (30_encoding.md R48) or `name.Y[d]` (log 11, DESIGN CHOICE). -/
def readLane (t : List Char) : Option LaneArg :=
  match readNumber t with
  | some v => some (.number v)
  | none =>
    match splitOnChar '.' t with
    | [n, 'Y' :: '[' :: rest] =>
      match rest.reverse with
      | ']' :: d =>
        match readName n, readNatural 10 d.reverse with
        | some n, some d => some (.resultOf n d)
        | _, _ => none
      | _ => none
    | _ => none

/-- A command from its word and its argument texts (30_encoding.md R48). -/
def readCommand (word : List Char) (args : List (List Char)) : Option Command :=
  if word = "ENCODE".toList then (args.mapM readLane).map Command.encode
  else if word = "DECODE".toList then
    match args with
    | [a] => do return .decode (← readBuffer a)
    | _ => none
  else if word = "MAKEMASK".toList then
    match args with
    | [n] => do return .makeMask (← readScalar n)
    | _ => none
  else if word = "MATCH".toList then
    match args with
    | [a, n, b] => do return .matchPrefix (← readBuffer a) (← readScalar n) (← readBuffer b)
    | _ => none
  else if word = "RENDER".toList then
    match args with
    | [a, n] => do return .render (← readBuffer a) (← readScalar n)
    | _ => none
  else if word = "NOT".toList then
    match args with
    | [a] => do return .bufNot (← readBuffer a)
    | _ => none
  else if word = "AND".toList then
    match args with
    | [a, b] => do return .bufAnd (← readBuffer a) (← readBuffer b)
    | _ => none
  else if word = "OR".toList then
    match args with
    | [a, b] => do return .bufOr (← readBuffer a) (← readBuffer b)
    | _ => none
  else if word = "SETBIT".toList then
    match args with
    | [a, n] => do return .setBit (← readBuffer a) (← readScalar n)
    | _ => none
  else if word = "CONCAT".toList then
    match args with
    | [a, b, c] => do return .concat (← readBuffer a) (← readBuffer b) (← readBuffer c)
    | _ => none
  else none

/-- The text before and after the first `<-`, if there is one. -/
def splitArrow : List Char → Option (List Char × List Char)
  | [] => none
  | '<' :: '-' :: rest => some ([], rest)
  | c :: rest => (splitArrow rest).map fun p => (c :: p.1, p.2)

/-- The command and its arguments, separated by commas (30_encoding.md R48). -/
def readBody (t : List Char) : Option Command :=
  let t := trimBlanks t
  let word := t.takeWhile fun c => !isBlank c
  let rest := trimBlanks (t.dropWhile fun c => !isBlank c)
  readCommand word (if rest.isEmpty then [] else (splitOnChar ',' rest).map trimBlanks)

/-- A line of text; a comment runs from `;` to the end of the line (30_encoding.md R48). -/
def readLine (t : List Char) : Except AsmError CommandLine :=
  let t := t.takeWhile fun c => c != ';'
  match splitArrow t with
  | some (n, body) =>
    match readName (trimBlanks n), readBody body with
    | some n, some cmd => .ok { name := some n, command := cmd }
    | _, _ => .error .badSyntax
  | none =>
    match readBody t with
    | some cmd => .ok { name := none, command := cmd }
    | none => .error .badSyntax

end Sys2Proof.Machine
end

