-- ==== Sys2Proof/Machine/Respond.lean ====
section
/-! DEFINITION. The function `exec : Request -> Response` of 10_state.md R11, without the ports. -/

namespace Sys2Proof.Machine

/-- The response of each command to a request. -/
def responseOf (i : Instr) (q : Request) : Response :=
  match i with
  | .encode f => encodeResponse f q
  | .decode f => decodeResponse f q
  | .makeMask _ => makeMaskResponse q
  | .matchPrefix f => matchResponse f q
  | .render f => renderResponse f q
  | .bufNot f => notResponse f q
  | .bufAnd f => andResponse f q
  | .bufOr f => orResponse f q
  | .setBit f => setBitResponse f q
  | .concat f => concatResponse f q

/-- The response of the unit to a request: a total function of the request alone (10_state.md R11). -/
def respond (q : Request) : Response :=
  match decode q.cw with
  | .ok i => responseOf i q
  | .error _ => raise .illegalCommand

end Sys2Proof.Machine
end

