-- ==== Sys2Proof/WellFormed.lean ====
section
/-! DEFINITION. When a command and a request are well formed: what a command word and a request record can express. -/

namespace Sys2Proof

/-- `NC` is an 8-bit field: 0 to NCMAX = 255 (30_encoding.md R37, R40; 00_scope.md R7). -/
abbrev CwFields.WellFormed (f : CwFields) : Prop := f.nc ≤ Config.NCMAX

/-- A command is well formed when its fields fit the command word. -/
abbrev Instr.WellFormed (i : Instr) : Prop := i.fields.WellFormed

/-- A record is a request of R12 on a unit with largest buffer length `lmax`: each length is in [0, LMAX]
(30_encoding.md R43) and `X` is a list of exactly `NC` lanes (R40). -/
abbrev Request.WellFormed (lmax : Nat) (q : Request) : Prop :=
  q.a.length ≤ lmax ∧ q.b.length ≤ lmax ∧ q.c.length ≤ lmax ∧ q.x.length = (cwFields q.cw).nc

end Sys2Proof
end

