-- ==== Sys2Proof/Safety.lean ====
section
/-! DEFINITION. What counts as a safe run: what a response may be, what may stand at the ports, and what a request holds
of the command line it stands for. -/

namespace Sys2Proof.Machine

/-- The values STATUS can take (30_encoding.md R46). -/
def statusCodes : List (BitVec 8) := [0x00, 0x01, 0x02, 0x03, 0x04, 0x05, 0x06, 0x07, 0x80]

/-- Every field but STATUS is zero (60_exceptions.md R84). -/
abbrev OnlyStatus (rsp : Response) : Prop :=
  rsp.r = [] ∧ rsp.y = Vector.replicate Config.K 0#32 ∧ rsp.flag = false

/-- What a response of the unit may be: a STATUS of R46, no result with an error (60_exceptions.md R84), and a result
that fits the result buffer (00_scope.md R7). -/
abbrev LawfulResponse (lmax : Nat) (rsp : Response) : Prop :=
  rsp.status ∈ statusCodes ∧ (rsp.status ≠ statusOk → OnlyStatus rsp) ∧ rsp.r.length ≤ Config.rmax lmax

/-- The ports of a unit with largest buffer length `lmax` carry requests of R12 and lawful responses. -/
abbrev LawfulPorts (lmax : Nat) (s : State) : Prop :=
  (∀ q ∈ s.requests, Request.WellFormed lmax q) ∧ (∀ rsp ∈ s.responses, LawfulResponse lmax rsp)

/-- One transaction on the oldest request: the outcome is a next state in which `rest` are the requests left, the
responses given before stand as they were, and one response with the property `P` comes behind them. -/
def AnswersWith (s : State) (rest : List Request) (o : Host.Outcome State Fault Refusal) (P : Response → Prop) : Prop :=
  ∃ rsp, o = .next { requests := rest, responses := s.responses ++ [rsp] } ∧ P rsp

/-- Two requests agree on every field a command reads (30_encoding.md R44), an absent slot's bytes apart
(30_encoding.md R39): the present bits and contents of the slots read, the scalar if read, the lane count and lanes if
read. `f1` and `f2` are the fields of the two command words. -/
def AgreeOn (rd : ReadSet) (f1 f2 : CwFields) (q1 q2 : Request) : Prop :=
  (rd.a = true → operand f1 q1 .a = operand f2 q2 .a) ∧
  (rd.b = true → operand f1 q1 .b = operand f2 q2 .b) ∧
  (rd.c = true → operand f1 q1 .c = operand f2 q2 .c) ∧
  (rd.arg = true → q1.arg = q2.arg) ∧
  (rd.lanes = true → f1.nc = f2.nc ∧ ∀ d, d < f1.nc → lane q1 d = lane q2 d)

/-- A buffer with one bit flipped, counted as R26 counts (20_memory.md R26). -/
def flipBit (b : Buffer) (i : Nat) : Buffer := b.modify (i / 8) fun v => v ^^^ (0x80#8 >>> (i % 8))

/-- A buffer read as one number, byte 0 most significant (20_memory.md R28). -/
def bufferNumber (b : Buffer) : Nat := b.foldl (fun n v => 256 * n + v.toNat) 0

/-- A slot holds a buffer argument: the literal's bytes, nothing for `null`, or the result buffer of an earlier line
answered without an error (30_encoding.md R48; 70_reset_and_hazards.md R97). -/
def HoldsBuffer (vars : HostVars) (arg : BufferArg) (isPresent : Bool) (bytes : Buffer) : Prop :=
  match arg with
  | .literal b => isPresent = true ∧ bytes = b
  | .null => isPresent = false
  | .resultOf n => isPresent = true ∧ ∃ rsp, vars.lookup n = some rsp ∧ rsp.status = 0x00 ∧ bytes = rsp.r

/-- A lane holds a coordinate argument: the number, or a coordinate of an earlier line answered without an error
(30_encoding.md R48; 70_reset_and_hazards.md R97; log 11). -/
def HoldsLane (vars : HostVars) (arg : LaneArg) (v : Config.Lane) : Prop :=
  match arg with
  | .number n => v.toNat = n
  | .resultOf n d => ∃ rsp, vars.lookup n = some rsp ∧ rsp.status = 0x00 ∧ rsp.y[d]? = some v

/-- A buffer argument that a slot of at most `lmax` bytes can hold (30_encoding.md R43). -/
def Carries (lmax : Nat) (vars : HostVars) (arg : BufferArg) : Prop :=
  ∃ isPresent bytes, HoldsBuffer vars arg isPresent bytes ∧ (isPresent = true → bytes.length ≤ lmax)

/-- A scalar argument of R48, which `ARG` holds (30_encoding.md R42). -/
abbrev ScalarFits (n : Int) : Prop := -(2 ^ 31) ≤ n ∧ n < 2 ^ 31

/-- A command whose arguments a request can carry (30_encoding.md R40, R42, R43, R48). -/
def Expressible (lmax : Nat) (vars : HostVars) : Command → Prop
  | .encode xs => xs.length ≤ 255 ∧ ∀ x ∈ xs, ∃ v, HoldsLane vars x v
  | .decode a => Carries lmax vars a
  | .makeMask n => ScalarFits n
  | .matchPrefix a n b => Carries lmax vars a ∧ ScalarFits n ∧ Carries lmax vars b
  | .render a n => Carries lmax vars a ∧ ScalarFits n
  | .bufNot a => Carries lmax vars a
  | .bufAnd a b => Carries lmax vars a ∧ Carries lmax vars b
  | .bufOr a b => Carries lmax vars a ∧ Carries lmax vars b
  | .setBit a n => Carries lmax vars a ∧ ScalarFits n
  | .concat a b c => Carries lmax vars a ∧ Carries lmax vars b ∧ Carries lmax vars c

/-- The earlier line a buffer argument reads. -/
def bufferNames : BufferArg → List HostName
  | .resultOf n => [n]
  | .literal _ => []
  | .null => []

/-- The earlier line a coordinate argument reads. -/
def laneNames : LaneArg → List HostName
  | .resultOf n _ => [n]
  | .number _ => []

/-- The earlier lines whose results a command reads. -/
def namesRead : Command → List HostName
  | .encode xs => xs.flatMap laneNames
  | .decode a => bufferNames a
  | .makeMask _ => []
  | .matchPrefix a _ b => bufferNames a ++ bufferNames b
  | .render a _ => bufferNames a
  | .bufNot a => bufferNames a
  | .bufAnd a b => bufferNames a ++ bufferNames b
  | .bufOr a b => bufferNames a ++ bufferNames b
  | .setBit a _ => bufferNames a
  | .concat a b c => bufferNames a ++ bufferNames b ++ bufferNames c

end Sys2Proof.Machine
end

