-- ==== Sys2Proof/Certificates/Slice0/Obligations.lean ====
section
/-! DEFINITION. The statements for the provers. Numbers are the spec's for K = 3, W = 32: KW = 96, KEYLEN = 12; the
statements over `k` and `w` hold for every number of dimensions and every width. -/

open Sys2Proof Sys2Proof.Machine

/-! ## The command word -/

/-- 30_encoding.md, the table of canonical command words, all thirteen rows: each word decodes to its command with its
present bits and lane count. -/
def Obligations.CanonicalWordsDecode : Prop :=
  decode 0x00030001 = .ok (.encode ⟨false, false, false, 3⟩) ∧
  decode 0x00000001 = .ok (.encode ⟨false, false, false, 0⟩) ∧
  decode 0x00000102 = .ok (.decode ⟨true, false, false, 0⟩) ∧
  decode 0x00000002 = .ok (.decode ⟨false, false, false, 0⟩) ∧
  decode 0x00000010 = .ok (.makeMask ⟨false, false, false, 0⟩) ∧
  decode 0x00000311 = .ok (.matchPrefix ⟨true, true, false, 0⟩) ∧
  decode 0x00000112 = .ok (.render ⟨true, false, false, 0⟩) ∧
  decode 0x00000120 = .ok (.bufNot ⟨true, false, false, 0⟩) ∧
  decode 0x00000321 = .ok (.bufAnd ⟨true, true, false, 0⟩) ∧
  decode 0x00000322 = .ok (.bufOr ⟨true, true, false, 0⟩) ∧
  decode 0x00000123 = .ok (.setBit ⟨true, false, false, 0⟩) ∧
  decode 0x00000724 = .ok (.concat ⟨true, true, true, 0⟩) ∧
  decode 0x00000524 = .ok (.concat ⟨true, false, true, 0⟩)

/-- Decoding the word of any well-formed command, with every present bit and lane count, gives the command back
(30_encoding.md R37, R38). -/
def Obligations.DecodeOfEncodeIsTheCommand : Prop :=
  ∀ i : Instr, i.WellFormed → decode (encode i) = .ok i

/-- A word that decodes is the encoding of the well-formed command it decodes to: one word, one command
(30_encoding.md R37, R38). -/
def Obligations.DecodedWordIsTheEncoding : Prop :=
  ∀ (cw : Word) (i : Instr), decode cw = .ok i → i.WellFormed ∧ encode i = cw

/-- 30_encoding.md R38: the decoder's test of `CW & 0xFF00F8FF` selects each of the ten commands by its opcode, with
PA, PB, PC and NC from the bits the mask leaves free, and every other value selects none. -/
def Obligations.MaskedWordSelectsCommand : Prop :=
  ∀ cw : Word, ∀ f : CwFields,
    f = ⟨cw.getLsbD 8, cw.getLsbD 9, cw.getLsbD 10, (cw.toNat / 2 ^ 16) % 256⟩ →
    (decode cw = .ok (.encode f) ↔ cw &&& 0xFF00F8FF = 0x01) ∧
    (decode cw = .ok (.decode f) ↔ cw &&& 0xFF00F8FF = 0x02) ∧
    (decode cw = .ok (.makeMask f) ↔ cw &&& 0xFF00F8FF = 0x10) ∧
    (decode cw = .ok (.matchPrefix f) ↔ cw &&& 0xFF00F8FF = 0x11) ∧
    (decode cw = .ok (.render f) ↔ cw &&& 0xFF00F8FF = 0x12) ∧
    (decode cw = .ok (.bufNot f) ↔ cw &&& 0xFF00F8FF = 0x20) ∧
    (decode cw = .ok (.bufAnd f) ↔ cw &&& 0xFF00F8FF = 0x21) ∧
    (decode cw = .ok (.bufOr f) ↔ cw &&& 0xFF00F8FF = 0x22) ∧
    (decode cw = .ok (.setBit f) ↔ cw &&& 0xFF00F8FF = 0x23) ∧
    (decode cw = .ok (.concat f) ↔ cw &&& 0xFF00F8FF = 0x24) ∧
    ((∃ e, decode cw = .error e) ↔
      cw &&& 0xFF00F8FF ∉ [0x01#32, 0x02, 0x10, 0x11, 0x12, 0x20, 0x21, 0x22, 0x23, 0x24])

/-- 30_encoding.md R41, 60_exceptions.md R82: a request with an unassigned opcode (CW[7:0]) or a reserved bit set
(CW[15:11], CW[31:24]) is answered with STATUS 0x80 and every other field zero, whatever its operands; a request without
is never answered with 0x80. -/
def Obligations.IllegalWordIsAnsweredIllegal : Prop :=
  ∀ (s : State) (q : Request) (rest : List Request), s.requests = q :: rest →
    AnswersWith s rest (step s) fun rsp =>
      (((q.cw.toNat % 256 ∉ [0x01, 0x02, 0x10, 0x11, 0x12, 0x20, 0x21, 0x22, 0x23, 0x24] ∨
          (q.cw.toNat / 2 ^ 11) % 32 ≠ 0 ∨ q.cw.toNat / 2 ^ 24 ≠ 0) →
        rsp = { status := 0x80, r := [], y := #v[0, 0, 0], flag := false }) ∧
      (q.cw.toNat % 256 ∈ [0x01, 0x02, 0x10, 0x11, 0x12, 0x20, 0x21, 0x22, 0x23, 0x24] ∧
          (q.cw.toNat / 2 ^ 11) % 32 = 0 ∧ q.cw.toNat / 2 ^ 24 = 0 →
        rsp.status ≠ 0x80))

/-! ## The transaction -/

/-- When the command word of the oldest request decodes to a command, a step is that command's meaning on the same
state; an illegal word is answered with the `IllegalCommand` response; at an idle port a step changes nothing (the last
is the model's choice, log 3). -/
def Obligations.StepRunsTheDecodedCommand : Prop :=
  (∀ (s : State) (q : Request) (rest : List Request) (i : Instr),
    s.requests = q :: rest → decode q.cw = .ok i → step s = exec i s) ∧
  (∀ (s : State) (q : Request) (rest : List Request) (e : Reject),
    s.requests = q :: rest → decode q.cw = .error e →
      step s = .next { requests := rest, responses := s.responses ++ [raise .illegalCommand] }) ∧
  (∀ s : State, s.requests = [] → step s = .next s)

/-- 10_state.md R11: the response is a total function of the request and of nothing else. In any two states with the
same oldest request the step answers, and gives the same response `respond q`, whatever waits behind and whatever was
answered before. -/
def Obligations.ResponseIsAFunctionOfTheRequest : Prop :=
  ∀ (s₁ s₂ : State) (q : Request) (rest₁ rest₂ : List Request), s₁.requests = q :: rest₁ → s₂.requests = q :: rest₂ →
    step s₁ = .next { requests := rest₁, responses := s₁.responses ++ [respond q] } ∧
    step s₂ = .next { requests := rest₂, responses := s₂.responses ++ [respond q] }

/-- 20_memory.md R33 (with R32: each response is that of its own request): however many steps run, the responses come
behind those given before, in the order of the requests, one each. That a step beyond the last request changes nothing is
the model's choice (log 3, DESIGN CHOICE). -/
def Obligations.ResponsesComeInRequestOrder : Prop :=
  ∀ (n : Nat) (s : State), core.run n s =
    .next { requests := s.requests.drop n, responses := s.responses ++ (s.requests.take n).map respond : State }

/-- The frame of every command (10_state.md R14, R22): it answers exactly when a request stands at the port, consumes
that request alone, leaves the requests behind it and the responses given before as they were, and adds one response.
That a meaning called where no request stands is `Fault.noRequest` is the model's choice (log 3, DESIGN CHOICE). -/
def Obligations.EveryCommandIsOneTransaction : Prop :=
  ∀ (i : Instr) (s : State),
    (∀ t, exec i s = .next t ↔ ∃ q rest, s.requests = q :: rest ∧
      t = { requests := rest, responses := s.responses ++ [responseOf i q] }) ∧
    (exec i s = .fault .noRequest ↔ s.requests = []) ∧ (∀ r, exec i s ≠ .refused r)

/-- 60_exceptions.md R85: an error leaves no trace. The request behind a failing one is answered exactly as if the
failing one had never been issued. -/
def Obligations.ErrorLeavesNoTrace : Prop :=
  ∀ (s : State) (q q' : Request) (rest : List Request), s.requests = q :: q' :: rest → (respond q).status ≠ 0x00 →
    ∃ t rsp, step s = .next t ∧
      step t = .next { requests := rest, responses := s.responses ++ [respond q, rsp] } ∧
      step { s with requests := q' :: rest } = .next { requests := rest, responses := s.responses ++ [rsp] }

/-- 70_reset_and_hazards.md R90: reset drops every request in flight without a response, and the next request issued is
answered as by any other unit. That the responses already given and not yet taken stay at the port is the model's choice
(log 4, DESIGN CHOICE). -/
def Obligations.ResetDropsRequestsInFlight : Prop :=
  ∀ (s : State) (q : Request),
    s.assertReset = { requests := [], responses := s.responses } ∧
    step (s.assertReset.issue q) = .next { requests := [], responses := s.responses ++ [respond q] }

/-! ## Conditions -/

/-- 60_exceptions.md R83, R84 and the summary by command: the STATUS of every command is that of the first check that
fails, in the priority order, and 0x00 when none does; with any condition every other field is zero. `IllegalCommand`
comes before all of them: a request whose word does not decode is answered with 0x80 alone, whatever its operands, and
only one whose word decodes runs a command. -/
def Obligations.StatusIsTheFirstFailingCheck : Prop :=
  (∀ (s : State) (q : Request) (rest : List Request), s.requests = q :: rest →
    (∀ e, decode q.cw = .error e →
      AnswersWith s rest (step s) fun rsp => rsp = { status := 0x80, r := [], y := #v[0, 0, 0], flag := false }) ∧
    (∀ i, decode q.cw = .ok i → step s = exec i s)) ∧
  ∀ (i : Instr) (s : State) (q : Request) (rest : List Request), s.requests = q :: rest →
    AnswersWith s rest (exec i s) fun rsp =>
      (rsp.status ≠ 0x00 → rsp.r = [] ∧ rsp.y = #v[0, 0, 0] ∧ rsp.flag = false) ∧ rsp.status =
      match i with
      | .encode f => if f.nc ≠ 3 then 0x01 else 0x00
      | .decode f => if f.pa = false then 0x06 else if q.a.length ≠ 12 then 0x02 else 0x00
      | .makeMask _ => if q.arg.toInt < 1 ∨ q.arg.toInt > 96 then 0x03 else 0x00
      | .matchPrefix f =>
        if f.pa = false ∨ f.pb = false then 0x06
        else if q.arg.toInt < 1 ∨ q.arg.toInt > 96 then 0x03
        else if q.a.length < 12 ∨ q.b.length < 12 then 0x07 else 0x00
      | .render f =>
        if f.pa = false then 0x06
        else if q.arg.toInt < 1 ∨ q.arg.toInt > 96 then 0x03
        else if q.a.length ≠ 12 then 0x02 else 0x00
      | .bufNot f => if f.pa = false then 0x06 else 0x00
      | .bufAnd f =>
        if f.pa = false ∨ f.pb = false then 0x06 else if q.a.length ≠ q.b.length then 0x04 else 0x00
      | .bufOr f =>
        if f.pa = false ∨ f.pb = false then 0x06 else if q.a.length ≠ q.b.length then 0x04 else 0x00
      | .setBit f =>
        if f.pa = false then 0x06
        else if q.arg.toInt < 0 ∨ q.arg.toInt ≥ 8 * (q.a.length : Int) then 0x05 else 0x00
      | .concat f => if f.pa = false ∨ f.pb = false ∨ f.pc = false then 0x06 else 0x00

/-- 60_exceptions.md R75, R78, R79, R80: which commands raise `InvalidArity`, `LengthMismatch`, `BitPositionOutOfRange`
and `NullArgument`, and exactly when; no other command raises them. -/
def Obligations.ConditionsRaisedExactlyWhen : Prop :=
  ∀ (i : Instr) (s : State) (q : Request) (rest : List Request), s.requests = q :: rest →
    AnswersWith s rest (exec i s) fun rsp =>
      (rsp.status = 0x01 ↔ ∃ f, i = .encode f ∧ f.nc ≠ 3) ∧
      (rsp.status = 0x04 ↔ ∃ f, (i = .bufAnd f ∨ i = .bufOr f) ∧ f.pa = true ∧ f.pb = true ∧
        q.a.length ≠ q.b.length) ∧
      (rsp.status = 0x05 ↔ ∃ f, i = .setBit f ∧ f.pa = true ∧
        (q.arg.toInt < 0 ∨ q.arg.toInt ≥ 8 * (q.a.length : Int))) ∧
      (rsp.status = 0x06 ↔ ∃ f,
        ((i = .decode f ∨ i = .render f ∨ i = .bufNot f ∨ i = .setBit f) ∧ f.pa = false) ∨
        ((i = .matchPrefix f ∨ i = .bufAnd f ∨ i = .bufOr f) ∧ (f.pa = false ∨ f.pb = false)) ∨
        (i = .concat f ∧ (f.pa = false ∨ f.pb = false ∨ f.pc = false)))

/-- 60_exceptions.md R84 and 30_encoding.md R46: the response of every step and of every command has one of the nine
STATUS values, and with any value but 0x00 every other field is zero; the requests behind and the responses before stand
as they were. -/
def Obligations.ErrorResponseIsStatusAlone : Prop :=
  ∀ (s : State) (q : Request) (rest : List Request) (o : Host.Outcome State Fault Refusal), s.requests = q :: rest →
    (o = step s ∨ ∃ i, o = exec i s) →
    AnswersWith s rest o fun rsp =>
      rsp.status ∈ [0x00#8, 0x01, 0x02, 0x03, 0x04, 0x05, 0x06, 0x07, 0x80] ∧
      (rsp.status ≠ 0x00 → rsp.r = [] ∧ rsp.y = #v[0, 0, 0] ∧ rsp.flag = false)

/-- 10_state.md R13: which fields each command writes on success, with the length of the result buffer; every other
field is zero. -/
def Obligations.FieldsWrittenOnSuccess : Prop :=
  ∀ (i : Instr) (s : State) (q : Request) (rest : List Request), s.requests = q :: rest →
    AnswersWith s rest (exec i s) fun rsp => rsp.status = 0x00 →
      ((∀ f, i ≠ .decode f) → rsp.y = #v[0, 0, 0]) ∧ ((∀ f, i ≠ .matchPrefix f) → rsp.flag = false) ∧
      rsp.r.length =
        match i with
        | .encode _ | .makeMask _ => 12
        | .decode _ | .matchPrefix _ => 0
        | .render _ => 96
        | .bufNot _ | .bufAnd _ | .bufOr _ | .setBit _ => q.a.length
        | .concat _ => q.a.length + q.b.length + q.c.length

/-- 30_encoding.md R44, R45, R39: the table of the fields each command reads, and two requests that agree on them get the
same response from the same command, whatever the fields it does not read and the bytes of absent slots hold. -/
def Obligations.UnreadFieldsAreIgnored : Prop :=
  (∀ f : CwFields,
    readSet (.encode f) = ⟨false, false, false, false, true⟩ ∧
    readSet (.decode f) = ⟨true, false, false, false, false⟩ ∧
    readSet (.makeMask f) = ⟨false, false, false, true, false⟩ ∧
    readSet (.matchPrefix f) = ⟨true, true, false, true, false⟩ ∧
    readSet (.render f) = ⟨true, false, false, true, false⟩ ∧
    readSet (.bufNot f) = ⟨true, false, false, false, false⟩ ∧
    readSet (.bufAnd f) = ⟨true, true, false, false, false⟩ ∧
    readSet (.bufOr f) = ⟨true, true, false, false, false⟩ ∧
    readSet (.setBit f) = ⟨true, false, false, true, false⟩ ∧
    readSet (.concat f) = ⟨true, true, true, false, false⟩) ∧
  ∀ (i₁ i₂ : Instr) (s₁ s₂ : State) (q₁ q₂ : Request) (rest₁ rest₂ : List Request),
    opcode i₁ = opcode i₂ → s₁.requests = q₁ :: rest₁ → s₂.requests = q₂ :: rest₂ →
    AgreeOn (readSet i₁) i₁.fields i₂.fields q₁ q₂ →
    ∃ rsp, exec i₁ s₁ = .next { requests := rest₁, responses := s₁.responses ++ [rsp] } ∧
      exec i₂ s₂ = .next { requests := rest₂, responses := s₂.responses ++ [rsp] }

/-! ## Invariants of the ports -/

/-- For every admitted LMAX: if the ports carry requests of R12 and lawful responses (a STATUS of R46, no result with an
error, a result of at most RMAX bytes), so they do after a step (00_scope.md R7: no legal result is ever too long for
the port). -/
def Obligations.LawfulPortsAreKept : Prop :=
  ∀ (lmax : Nat) (s t : State), Config.AdmittedLMAX lmax → LawfulPorts lmax s → step s = .next t → LawfulPorts lmax t

/-- After reset nothing is in flight and nothing was answered (the second is the model's choice, log 4), which is
lawful. -/
def Obligations.ResetPortsAreEmptyAndLawful : Prop :=
  State.reset.requests = [] ∧ State.reset.responses = [] ∧ ∀ lmax, LawfulPorts lmax State.reset

/-! ## Bits of buffers and coordinates -/

/-- 20_memory.md R26, R27: buffer bit i is bit 7 − (i mod 8) by weight of byte i div 8; coordinate position p is the bit
of weight 2^(W−1−p). -/
def Obligations.BitNumbering : Prop :=
  (∀ (b : Buffer) (i : Nat) (h : i < 8 * b.length),
    bit b i = decide ((b[i / 8]'(by omega)).toNat / 2 ^ (7 - i % 8) % 2 = 1)) ∧
  (∀ (w : Nat) (v : BitVec w) (p : Nat), p < w → cbit v p = decide (v.toNat / 2 ^ (w - 1 - p) % 2 = 1))

/-! ## The interleaver -/

/-- 40_interleaver.md R50: ENCODE with three lanes answers with a 12-byte key in which key bit 3·p + d is the bit of
MSB-first position p of coordinate d, for every lane d the request carries; Y and FLAG are zero. -/
def Obligations.EncodeInterleavesTheLanes : Prop :=
  ∀ (f : CwFields) (s : State) (q : Request) (rest : List Request), s.requests = q :: rest → f.nc = 3 →
    AnswersWith s rest (exec (.encode f) s) fun rsp =>
      rsp.status = 0x00 ∧ rsp.r.length = 12 ∧ rsp.y = #v[0, 0, 0] ∧ rsp.flag = false ∧
      ∀ d v, d < 3 → q.x[d]? = some v → ∀ p, p < 32 → bit rsp.r (3 * p + d) = v.getMsbD p

/-- 40_interleaver.md R51: DECODE of a present 12-byte key answers with the coordinates in which MSB-first position p of
coordinate d is key bit 3·p + d; R is empty and FLAG zero. -/
def Obligations.DecodeRoutesKeyBitsBack : Prop :=
  ∀ (f : CwFields) (s : State) (q : Request) (rest : List Request), s.requests = q :: rest → f.pa = true →
    q.a.length = 12 →
    AnswersWith s rest (exec (.decode f) s) fun rsp =>
      rsp.status = 0x00 ∧ rsp.r = [] ∧ rsp.flag = false ∧
      ∀ d (hd : d < 3) p, p < 32 → rsp.y[d].getMsbD p = bit q.a (3 * p + d)

/-- 40_interleaver.md R52: decode(encode(c)) = c, for every K and W; and in command terms: what ENCODE answers for
coordinates x, y, t, DECODE answers with x, y, t. -/
def Obligations.DecodeOfEncodeIsTheCoordinates : Prop :=
  (∀ (k w : Nat) (x : Nat → BitVec w) (d : Nat), d < k → deinterleave k w (interleave k w x) d = x d) ∧
  ∀ (x y t : Config.Lane) (fe fd : CwFields) (s : State) (q : Request) (rest : List Request),
    fe.nc = 3 → fd.pa = true → s.requests = q :: rest → q.x = [x, y, t] →
    ∃ key, exec (.encode fe) s = .next
        { requests := rest, responses := s.responses ++ [{ status := 0x00, r := key, y := #v[0, 0, 0], flag := false }] } ∧
      ∀ (s' : State) (q' : Request) (rest' : List Request), s'.requests = q' :: rest' → q'.a = key →
        exec (.decode fd) s' = .next
          { requests := rest', responses := s'.responses ++ [{ status := 0x00, r := [], y := #v[x, y, t], flag := false }] }

/-- 40_interleaver.md R54: encode(decode(k)) = k for every key whose pad bits are zero, for every K and W; for K = 3 and
W = 32 there are no pad bits, so what DECODE answers for any 12-byte buffer, ENCODE turns back into that buffer, and the
two are inverse bijections between the coordinates and the 12-byte buffers. -/
def Obligations.EncodeOfDecodeIsTheKey : Prop :=
  (∀ (k w : Nat) (key : Buffer), key.length = Config.keyLen k w →
    (∀ i, k * w ≤ i → i < 8 * Config.keyLen k w → bit key i = false) →
    interleave k w (deinterleave k w key) = key) ∧
  (∀ x : Nat → Config.Lane, (interleave 3 32 x).length = 12 ∧
    ∀ d, d < 3 → deinterleave 3 32 (interleave 3 32 x) d = x d) ∧
  ∀ (key : Buffer) (fe fd : CwFields) (s : State) (q : Request) (rest : List Request),
    key.length = 12 → fe.nc = 3 → fd.pa = true → s.requests = q :: rest → q.a = key →
    ∃ x y t, exec (.decode fd) s = .next
        { requests := rest, responses := s.responses ++ [{ status := 0x00, r := [], y := #v[x, y, t], flag := false }] } ∧
      ∀ (s' : State) (q' : Request) (rest' : List Request), s'.requests = q' :: rest' → q'.x = [x, y, t] →
        exec (.encode fe) s' = .next
          { requests := rest', responses := s'.responses ++ [{ status := 0x00, r := key, y := #v[0, 0, 0], flag := false }] }

/-- 40_interleaver.md R55: for every K and W the pad bits (positions K·W to 8·KEYLEN − 1) are 0 in a key and in a mask,
ignored by DECODE and shown as `*` by RENDER; for K = 3 and W = 32 there are none. That the byte of `*` is 0x2A is taken
from general knowledge (93 G1; log 13, PRESUMED). -/
def Obligations.PadBitsCarryNothing : Prop :=
  (∀ (k w i : Nat) (x : Nat → BitVec w), k * w ≤ i → i < 8 * Config.keyLen k w → bit (interleave k w x) i = false) ∧
  (∀ (k w : Nat) (b1 b2 : Buffer) (d : Nat), (∀ i, i < k * w → bit b1 i = bit b2 i) →
    deinterleave k w b1 d = deinterleave k w b2 d) ∧
  (∀ (k w n i : Nat), 1 ≤ n → n ≤ k * w → k * w ≤ i → i < 8 * Config.keyLen k w →
    bit (prefixMask k w n) i = false) ∧
  (∀ (k w n i : Nat) (key : Buffer), 1 ≤ n → n ≤ k * w → k * w ≤ i → i < 8 * Config.keyLen k w →
    (renderKey k w key n)[i]? = some 0x2A#8) ∧
  Config.KW = 96 ∧ 8 * Config.KEYLEN = 96

/-- 20_memory.md R28: the key is 12 bytes; bit i belongs to dimension i mod 3, source bit i div 3 (MSB-first). Read as
one number with byte 0 most significant, it is the interleave with dimension 0's most
significant bit on top, and unsigned byte-wise comparison of two 12-byte keys is comparison of those numbers. -/
def Obligations.KeyIsABigEndianNumber : Prop :=
  (∀ (x : Nat → Config.Lane) (i : Nat), i < 96 →
    (interleave 3 32 x).length = 12 ∧ bit (interleave 3 32 x) i = (x (i % 3)).getMsbD (i / 3) ∧
    (bufferNumber (interleave 3 32 x)).testBit (95 - i) = (x (i % 3)).getMsbD (i / 3)) ∧
  (∀ a b : Buffer, a.length = 12 → b.length = 12 → (a < b ↔ bufferNumber a < bufferNumber b))

/-- The interleave map only moves bits (95_test_vectors.md program P2): where K·W is a multiple of 8, the key of the
complemented coordinates is the complemented key. -/
def Obligations.EncodeCommutesWithComplement : Prop :=
  ∀ (k w : Nat) (x : Nat → BitVec w), 8 ∣ k * w → interleave k w (fun d => ~~~(x d)) = complement (interleave k w x)

/-- 40_interleaver.md R53: lanes are raw bit patterns. Key bit k·p + d is the bit of weight 2^(w − 1 − p) of lane d read
as the unsigned number, which for a negative two's-complement coordinate n is n + 2^w: of the interleave for every K and
W, and of ENCODE's response with three lanes; no sign bit is flipped and no offset added. -/
def Obligations.NegativeCoordinateIsItsBitPattern : Prop :=
  (∀ (k w : Nat) (n : Nat → Int) (d p : Nat), d < k → p < w → -(2 ^ w) ≤ 2 * n d → n d < 0 →
    bit (interleave k w fun d => BitVec.ofInt w (n d)) (k * p + d) = (n d + 2 ^ w).toNat.testBit (w - 1 - p)) ∧
  ∀ (f : CwFields) (s : State) (q : Request) (rest : List Request), s.requests = q :: rest → f.nc = 3 →
    AnswersWith s rest (exec (.encode f) s) fun rsp =>
      rsp.status = 0x00 ∧ rsp.r.length = 12 ∧ rsp.y = #v[0, 0, 0] ∧ rsp.flag = false ∧
      (∀ d v, d < 3 → q.x[d]? = some v → ∀ p, p < 32 → bit rsp.r (3 * p + d) = v.toNat.testBit (31 - p)) ∧
      (∀ (d : Nat) (n : Int), d < 3 → -(2 ^ 31) ≤ n → n < 0 → q.x[d]? = some (BitVec.ofInt 32 n) →
        ∀ p, p < 32 → bit rsp.r (3 * p + d) = (n + 2 ^ 32).toNat.testBit (31 - p))

/-! ## Prefix masks -/

/-- 41_prefixmask.md R56: MAKEMASK answers with the 12-byte mask whose leading n bits are 1 and whose other bits are 0
when n is in [1, 96], and with 0x03 alone for every other scalar. -/
def Obligations.MakeMaskSetsTheLeadingBits : Prop :=
  ∀ (f : CwFields) (s : State) (q : Request) (rest : List Request), s.requests = q :: rest →
    AnswersWith s rest (exec (.makeMask f) s) fun rsp =>
      rsp.y = #v[0, 0, 0] ∧ rsp.flag = false ∧
      (1 ≤ q.arg.toInt ∧ q.arg.toInt ≤ 96 → rsp.status = 0x00 ∧ rsp.r.length = 12 ∧
        ∀ i : Nat, i < 96 → bit rsp.r i = decide ((i : Int) < q.arg.toInt)) ∧
      (q.arg.toInt < 1 ∨ 96 < q.arg.toInt → rsp.status = 0x03 ∧ rsp.r = [])

/-- 41_prefixmask.md R57: the mask byte by byte, with q = (n − 1) div 8 and r = n − 8·q. -/
def Obligations.MaskByteForm : Prop :=
  ∀ k w n : Nat, 1 ≤ n → n ≤ k * w →
    (n - 1) / 8 < Config.keyLen k w ∧ 1 ≤ n - 8 * ((n - 1) / 8) ∧ n - 8 * ((n - 1) / 8) ≤ 8 ∧
    prefixMask k w n = List.replicate ((n - 1) / 8) 0xFF#8 ++ [0xFF#8 <<< (8 - (n - 8 * ((n - 1) / 8)))] ++
      List.replicate (Config.keyLen k w - (n - 1) / 8 - 1) 0x00#8

/-- 41_prefixmask.md R61: for all n in [1, K·W] the mask has exactly n bits set, all in the leading positions. -/
def Obligations.MaskHasExactlyNBits : Prop :=
  ∀ k w n : Nat, 1 ≤ n → n ≤ k * w →
    ((List.range (8 * Config.keyLen k w)).filter fun i => bit (prefixMask k w n) i).length = n ∧
    (∀ i, i < 8 * Config.keyLen k w → (bit (prefixMask k w n) i = true ↔ i < n))

/-- 41_prefixmask.md R60: at byte boundaries the mask is whole bytes; for n = 96 it is twelve bytes 0xFF and MATCH is
byte-for-byte equality of the first twelve bytes. -/
def Obligations.ByteBoundaryMasks : Prop :=
  (∀ k w b : Nat, 1 ≤ b → 8 * b ≤ k * w →
    prefixMask k w (8 * b) = List.replicate b 0xFF#8 ++ List.replicate (Config.keyLen k w - b) 0x00#8) ∧
  prefixMask 3 32 96 = List.replicate 12 0xFF#8 ∧
  (∀ (f : CwFields) (s : State) (q : Request) (rest : List Request), s.requests = q :: rest →
    f.pa = true → f.pb = true → q.arg = 96 → 12 ≤ q.a.length → 12 ≤ q.b.length →
    AnswersWith s rest (exec (.matchPrefix f) s) fun rsp =>
      rsp = { status := 0x00, r := [], y := #v[0, 0, 0], flag := decide (q.a.take 12 = q.b.take 12) })

/-- 41_prefixmask.md R63: MATCH answers true exactly when prefix and candidate agree on the bits below n and the prefix
is zero from n to 95; so flipping a candidate bit below n turns true into false, and flipping one at n or beyond changes
nothing. -/
def Obligations.MatchDependsOnPrefixBits : Prop :=
  ∀ (f : CwFields) (s : State) (q : Request) (rest : List Request), s.requests = q :: rest →
    f.pa = true → f.pb = true → 1 ≤ q.arg.toInt → q.arg.toInt ≤ 96 → 12 ≤ q.a.length → 12 ≤ q.b.length →
    AnswersWith s rest (exec (.matchPrefix f) s) fun rsp =>
      rsp.status = 0x00 ∧ rsp.r = [] ∧ rsp.y = #v[0, 0, 0] ∧
      (rsp.flag = true ↔
        (∀ i : Nat, (i : Int) < q.arg.toInt → bit q.a i = bit q.b i) ∧
        (∀ i : Nat, q.arg.toInt ≤ (i : Int) → i < 96 → bit q.a i = false)) ∧
      ∀ (p : Nat) (s' : State) (rest' : List Request), s'.requests = { q with b := flipBit q.b p } :: rest' →
        AnswersWith s' rest' (exec (.matchPrefix f) s') fun rsp' =>
          ((p : Int) < q.arg.toInt → rsp.flag = true → rsp'.flag = false) ∧
          (q.arg.toInt ≤ (p : Int) → rsp' = rsp)

/-- 41_prefixmask.md R62: a key matches its own prefix once the prefix is truncated under the mask; with the untruncated
key as prefix the match is true exactly when every key bit from n on is zero, so always for n = 96. The example of the
rule: [00 … 05 0E] as its own 12-bit prefix does not match. -/
def Obligations.MatchConsistency : Prop :=
  (∀ (f : CwFields) (s : State) (q : Request) (rest : List Request) (n : Nat), s.requests = q :: rest →
    f.pa = true → f.pb = true → 1 ≤ n → n ≤ 96 → q.arg = BitVec.ofNat 32 n → q.b.length = 12 →
    (q.a = conjunction q.b (prefixMask 3 32 n) →
      AnswersWith s rest (exec (.matchPrefix f) s) fun rsp => rsp.status = 0x00 ∧ rsp.flag = true) ∧
    (q.a = q.b →
      AnswersWith s rest (exec (.matchPrefix f) s) fun rsp => rsp.status = 0x00 ∧
        (rsp.flag = true ↔ ∀ i, n ≤ i → i < 96 → bit q.b i = false) ∧ (n = 96 → rsp.flag = true))) ∧
  matchFlag 3 32 [0, 0, 0, 0, 0, 0, 0, 0, 0, 0, 0x05, 0x0E] 12 [0, 0, 0, 0, 0, 0, 0, 0, 0, 0, 0x05, 0x0E] = false

/-- 41_prefixmask.md R59: RENDER of a present 12-byte key with n in [1, 96] answers with 96 character codes: '1' or '0'
for the bits below n, '*' from n on. The codes are the spec's general knowledge (93 G1). -/
def Obligations.RenderShowsThePrefix : Prop :=
  ∀ (f : CwFields) (s : State) (q : Request) (rest : List Request), s.requests = q :: rest →
    f.pa = true → 1 ≤ q.arg.toInt → q.arg.toInt ≤ 96 → q.a.length = 12 →
    AnswersWith s rest (exec (.render f) s) fun rsp =>
      rsp.status = 0x00 ∧ rsp.y = #v[0, 0, 0] ∧ rsp.flag = false ∧ rsp.r.length = 96 ∧
      ∀ i : Nat, i < 96 → rsp.r[i]? = some
        (if (i : Int) < q.arg.toInt then (if bit q.a i = true then 0x31#8 else 0x30#8) else 0x2A#8)

/-! ## Bitwise primitives -/

/-- 42_bitops.md R64: NOT of a present buffer answers with a buffer of the same length, each byte 255 minus the
operand's. -/
def Obligations.NotComplementsEachByte : Prop :=
  ∀ (f : CwFields) (s : State) (q : Request) (rest : List Request), s.requests = q :: rest → f.pa = true →
    AnswersWith s rest (exec (.bufNot f) s) fun rsp =>
      rsp.status = 0x00 ∧ rsp.y = #v[0, 0, 0] ∧ rsp.flag = false ∧ rsp.r.length = q.a.length ∧
      ∀ (j : Nat) (v : Byte), q.a[j]? = some v → ∃ u : Byte, rsp.r[j]? = some u ∧ u.toNat = 255 - v.toNat

/-- 42_bitops.md R65, R66: AND and OR of two present buffers of one length answer with a buffer of that length, each bit
the conjunction or disjunction of the operands' bits. -/
def Obligations.AndOrCombineBitByBit : Prop :=
  ∀ (f : CwFields) (s : State) (q : Request) (rest : List Request), s.requests = q :: rest →
    f.pa = true → f.pb = true → q.a.length = q.b.length →
    (AnswersWith s rest (exec (.bufAnd f) s) fun rsp =>
      rsp.status = 0x00 ∧ rsp.y = #v[0, 0, 0] ∧ rsp.flag = false ∧ rsp.r.length = q.a.length ∧
      ∀ i, bit rsp.r i = (bit q.a i && bit q.b i)) ∧
    (AnswersWith s rest (exec (.bufOr f) s) fun rsp =>
      rsp.status = 0x00 ∧ rsp.y = #v[0, 0, 0] ∧ rsp.flag = false ∧ rsp.r.length = q.a.length ∧
      ∀ i, bit rsp.r i = (bit q.a i || bit q.b i))

/-- 42_bitops.md R67: SETBIT of a present buffer at a position in [0, 8·ALEN) answers with the buffer in which that bit
is 1 and every other bit is unchanged; bytes other than byte pos div 8 are copied. -/
def Obligations.SetBitForcesOneBit : Prop :=
  ∀ (f : CwFields) (s : State) (q : Request) (rest : List Request) (pos : Nat), s.requests = q :: rest →
    f.pa = true → q.arg.toInt = (pos : Int) → pos < 8 * q.a.length →
    AnswersWith s rest (exec (.setBit f) s) fun rsp =>
      rsp.status = 0x00 ∧ rsp.y = #v[0, 0, 0] ∧ rsp.flag = false ∧ rsp.r.length = q.a.length ∧
      bit rsp.r pos = true ∧ (∀ i, i ≠ pos → bit rsp.r i = bit q.a i) ∧
      (∀ j, j ≠ pos / 8 → rsp.r[j]? = q.a[j]?)

/-- 42_bitops.md R71 (and R68): CONCAT of three present buffers answers with the buffer of their combined length whose
bytes are A's, then B's, then C's. -/
def Obligations.ConcatPlacesBuffersInOrder : Prop :=
  ∀ (f : CwFields) (s : State) (q : Request) (rest : List Request), s.requests = q :: rest →
    f.pa = true → f.pb = true → f.pc = true →
    AnswersWith s rest (exec (.concat f) s) fun rsp =>
      rsp.status = 0x00 ∧ rsp.y = #v[0, 0, 0] ∧ rsp.flag = false ∧
      rsp.r.length = q.a.length + q.b.length + q.c.length ∧
      ∀ j, j < rsp.r.length → rsp.r[j]? =
        if j < q.a.length then q.a[j]?
        else if j < q.a.length + q.b.length then q.b[j - q.a.length]?
        else q.c[j - q.a.length - q.b.length]?

/-- 42_bitops.md R69: not(not(b)) = b for all buffers b: what NOT answers for b, NOT answers with b. -/
def Obligations.ComplementLaw : Prop :=
  ∀ (f : CwFields) (s s' : State) (q q' : Request) (rest rest' : List Request) (t : State) (rsp : Response),
    f.pa = true → s.requests = q :: rest → s'.requests = q' :: rest' →
    exec (.bufNot f) s = .next t → t.responses = s.responses ++ [rsp] → q'.a = rsp.r →
    exec (.bufNot f) s' = .next
      { requests := rest', responses := s'.responses ++ [{ status := 0x00, r := q.a, y := #v[0, 0, 0], flag := false }] }

/-- 42_bitops.md R70: and(b, allOnes) = b and or(b, allZeros) = b, with all ones and all zeros of the length of b. -/
def Obligations.AndOrIdentity : Prop :=
  ∀ (f : CwFields) (s : State) (q : Request) (rest : List Request), s.requests = q :: rest →
    f.pa = true → f.pb = true →
    (q.b = ones q.a.length → exec (.bufAnd f) s = .next
      { requests := rest, responses := s.responses ++ [{ status := 0x00, r := q.a, y := #v[0, 0, 0], flag := false }] }) ∧
    (q.b = zeros q.a.length → exec (.bufOr f) s = .next
      { requests := rest, responses := s.responses ++ [{ status := 0x00, r := q.a, y := #v[0, 0, 0], flag := false }] })

/-- 42_bitops.md R72: the further identities of the bitwise primitives, on the operations the commands answer with; the
mask is SETBIT applied to a zero buffer at positions 0 to n − 1 in any order. -/
def Obligations.BitwiseIdentities : Prop :=
  (∀ b : Buffer, conjunction b b = b ∧ disjunction b b = b ∧
    conjunction b (complement b) = zeros b.length ∧ disjunction b (complement b) = ones b.length) ∧
  (∀ a b c : Buffer, a.length = b.length → b.length = c.length →
    conjunction a b = conjunction b a ∧ disjunction a b = disjunction b a ∧
    conjunction (conjunction a b) c = conjunction a (conjunction b c) ∧
    disjunction (disjunction a b) c = disjunction a (disjunction b c)) ∧
  (∀ (b : Buffer) (p : Nat), p < 8 * b.length →
    withBit1 b p = disjunction b (withBit1 (zeros b.length) p) ∧ withBit1 (withBit1 b p) p = withBit1 b p) ∧
  (∀ (k w n : Nat) (order : List Nat), 1 ≤ n → n ≤ k * w → order.Perm (List.range n) →
    prefixMask k w n = order.foldl withBit1 (zeros (Config.keyLen k w)))

/-! ## The host's command lines -/

/-- 30_encoding.md R43, R44, R45, R48: the request the assembler makes of a command line decodes to the line's command,
is a request of R12 (each length at most LMAX, exactly NC lanes), has every absent slot empty, every slot the command does
not read absent, ARG zero when it is not read and NC zero when lanes are not read; and the slots, ARG and lanes the command
reads hold the line's arguments in the source's order. That a lane may hold `name.Y[d]` is the model's choice (log 11,
DESIGN CHOICE). -/
def Obligations.AssembledRequestIsCanonical : Prop :=
  ∀ (lmax : Nat) (vars : HostVars) (c : Command) (q : Request), assemble lmax vars c = .ok q →
    ∃ i, decode q.cw = .ok i ∧ Request.WellFormed lmax q ∧
      opcode i = (match c with
        | .encode _ => 0x01 | .decode _ => 0x02 | .makeMask _ => 0x10 | .matchPrefix _ _ _ => 0x11
        | .render _ _ => 0x12 | .bufNot _ => 0x20 | .bufAnd _ _ => 0x21 | .bufOr _ _ => 0x22
        | .setBit _ _ => 0x23 | .concat _ _ _ => 0x24) ∧
      q.x.length = i.fields.nc ∧
      (i.fields.pa = false → q.a = []) ∧ (i.fields.pb = false → q.b = []) ∧ (i.fields.pc = false → q.c = []) ∧
      ((readSet i).a = false → i.fields.pa = false) ∧ ((readSet i).b = false → i.fields.pb = false) ∧
      ((readSet i).c = false → i.fields.pc = false) ∧ ((readSet i).arg = false → q.arg = 0) ∧
      ((readSet i).lanes = false → i.fields.nc = 0) ∧
      match c with
      | .encode xs => q.x.length = xs.length ∧ ∀ (j : Nat) x, xs[j]? = some x → ∃ v, q.x[j]? = some v ∧ HoldsLane vars x v
      | .decode a => HoldsBuffer vars a i.fields.pa q.a
      | .makeMask n => q.arg.toInt = n
      | .matchPrefix a n b =>
        HoldsBuffer vars a i.fields.pa q.a ∧ q.arg.toInt = n ∧ HoldsBuffer vars b i.fields.pb q.b
      | .render a n => HoldsBuffer vars a i.fields.pa q.a ∧ q.arg.toInt = n
      | .bufNot a => HoldsBuffer vars a i.fields.pa q.a
      | .bufAnd a b => HoldsBuffer vars a i.fields.pa q.a ∧ HoldsBuffer vars b i.fields.pb q.b
      | .bufOr a b => HoldsBuffer vars a i.fields.pa q.a ∧ HoldsBuffer vars b i.fields.pb q.b
      | .setBit a n => HoldsBuffer vars a i.fields.pa q.a ∧ q.arg.toInt = n
      | .concat a b c =>
        HoldsBuffer vars a i.fields.pa q.a ∧ HoldsBuffer vars b i.fields.pb q.b ∧ HoldsBuffer vars c i.fields.pc q.c

/-- 30_encoding.md R48, R49: on an idle machine a command line that assembles gets the unit's response to its request,
kept under the line's name, and the machine is as before: the unit holds nothing (10_state.md R10). That no response stands
at the port of the idle machine is the model's choice (log 4, DESIGN CHOICE). -/
def Obligations.HostKeepsTheResponse : Prop :=
  ∀ (lmax : Nat) (vars : HostVars) (n : HostName) (c : Command) (q : Request), assemble lmax vars c = .ok q →
    runLine lmax { vars := vars, machine := State.reset } { name := some n, command := c } =
      .ok { vars := (n, respond q) :: vars, machine := State.reset }

/-- 30_encoding.md R40, R42, R43, R48: the assembler makes a request exactly of the lines whose arguments a request can
carry: at most 255 coordinates in [0, 2^32 − 1], scalars in [−2^31, 2^31 − 1], buffers of at most LMAX bytes, and results
of earlier lines answered without an error. What it does with the other lines, refusing them, is the model's choice
(log 11, DESIGN CHOICE). -/
def Obligations.ExpressibleLinesAssemble : Prop :=
  ∀ (lmax : Nat) (vars : HostVars) (c : Command), (∃ q, assemble lmax vars c = .ok q) ↔ Expressible lmax vars c

/-- 70_reset_and_hazards.md R97: a response whose STATUS is not 0x00 carries no result. Its other fields are zero, and the
host reads none of them: no line that names it assembles, and its FLAG is not read as a "no match". -/
def Obligations.FailedResultIsNotRead : Prop :=
  (∀ q : Request, (respond q).status ≠ 0x00 →
    (respond q).r = [] ∧ (respond q).y = #v[0, 0, 0] ∧ (respond q).flag = false) ∧
  ∀ (lmax : Nat) (vars : HostVars) (n : HostName) (rsp : Response), vars.lookup n = some rsp → rsp.status ≠ 0x00 →
    (∀ b, flagOf vars n ≠ .ok b) ∧ ∀ (c : Command) (q : Request), assemble lmax vars c = .ok q → n ∉ namesRead c
end

