-- ==== Sys2Proof/Laws/Buffers.lean ====
section
/-! SUPPORT. The bits and the length of the result of each data operation. -/

namespace Sys2Proof.Machine

/-! ## Bits of a buffer -/

theorem bit_of_le_length {b : Buffer} {i : Nat} (h : 8 * b.length ≤ i) : bit b i = false := by
  have : b.length ≤ i / 8 := by omega
  simp [bit, List.getElem?_eq_none this]

theorem bit_eq_getMsbD {b : Buffer} {i : Nat} (h : i / 8 < b.length) : bit b i = b[i / 8].getMsbD (i % 8) := by
  simp [bit, h]

theorem bit_byte {b : Buffer} {j m : Nat} (hj : j < b.length) (hm : m < 8) : bit b (8 * j + m) = b[j].getMsbD m := by
  have h1 : (8 * j + m) / 8 = j := by omega
  have h2 : (8 * j + m) % 8 = m := by omega
  simp [bit, h1, h2, hj]

/-- Two buffers of one length with the same bits are the same buffer. -/
theorem buffer_ext {b1 b2 : Buffer} (hl : b1.length = b2.length)
    (hb : ∀ i, i < 8 * b1.length → bit b1 i = bit b2 i) : b1 = b2 := by
  refine List.ext_getElem hl fun j h1 h2 => BitVec.eq_of_getMsbD_eq fun m hm => ?_
  rw [← bit_byte h1 hm, ← bit_byte h2 hm]
  exact hb _ (by omega)

theorem bit_zeros (n i : Nat) : bit (zeros n) i = false := by
  simp only [bit, zeros, List.getD_eq_getElem?_getD, List.getElem?_replicate]
  split <;> simp

theorem bit_ones {n i : Nat} (h : i < 8 * n) : bit (ones n) i = true := by
  have hm : i % 8 < 8 := Nat.mod_lt _ (by omega)
  have hj : i / 8 < n := by omega
  simp only [bit, ones, List.getD_eq_getElem?_getD, List.getElem?_replicate, hj, if_true, Option.getD_some]
  generalize i % 8 = m at hm
  interval_cases m <;> decide

@[simp] theorem length_zeros (n : Nat) : (zeros n).length = n := by simp [zeros]
@[simp] theorem length_ones (n : Nat) : (ones n).length = n := by simp [ones]

/-! ## Setting bits -/

@[simp] theorem length_withBit1 (b : Buffer) (i : Nat) : (withBit1 b i).length = b.length := by simp [withBit1]

theorem getMsbD_or_single (v : Byte) {m n : Nat} (hm : m < 8) (hn : n < 8) :
    (v ||| (0x80#8 >>> m)).getMsbD n = (v.getMsbD n || n == m) := by
  interval_cases m <;> interval_cases n <;> simp [BitVec.getMsbD]

/-- One bit is forced to 1, every other bit is as before. -/
theorem bit_withBit1 {b : Buffer} {p : Nat} (i : Nat) (hp : p < 8 * b.length) :
    bit (withBit1 b p) i = (bit b i || i == p) := by
  have hpm : p % 8 < 8 := Nat.mod_lt _ (by omega)
  have him : i % 8 < 8 := Nat.mod_lt _ (by omega)
  by_cases hi : i / 8 < b.length
  · rw [bit_eq_getMsbD hi, bit_eq_getMsbD (by simpa using hi)]
    simp only [withBit1, List.getElem_modify]
    by_cases hj : p / 8 = i / 8
    · rw [if_pos hj, getMsbD_or_single _ hpm him]
      congr 1
      have : (i % 8 = p % 8) ↔ (i = p) := by omega
      rw [Bool.eq_iff_iff]; simpa using this
    · have : i ≠ p := by omega
      simp [hj, this]
  · have : i ≠ p := by omega
    rw [bit_of_le_length (by simp; omega), bit_of_le_length (by omega)]
    simp [this]

@[simp] theorem length_setBits (b : Buffer) (l : List Nat) : (setBits b l).length = b.length := by
  induction l generalizing b with
  | nil => rfl
  | cons p l ih => simpa [setBits] using ih (withBit1 b p)

/-- Exactly the listed bits are forced to 1. -/
theorem bit_setBits (l : List Nat) {b : Buffer} (i : Nat) (h : ∀ p ∈ l, p < 8 * b.length) :
    bit (setBits b l) i = (bit b i || decide (i ∈ l)) := by
  induction l generalizing b with
  | nil => simp [setBits]
  | cons p l ih =>
    have hp := h p (by simp)
    have := ih (b := withBit1 b p) (fun q hq => by simpa using h q (by simp [hq]))
    simp only [setBits, List.foldl_cons] at this ⊢
    rw [this, bit_withBit1 i hp]
    simp [Bool.or_assoc, Bool.decide_or, beq_eq_decide]

/-! ## The interleaver -/

theorem le_keyLen (k w : Nat) : k * w ≤ 8 * Config.keyLen k w := by unfold Config.keyLen; omega

theorem keyLen_lt (k w : Nat) : 8 * Config.keyLen k w < k * w + 8 := by unfold Config.keyLen; omega

@[simp] theorem length_interleave (k w : Nat) (x : Nat → BitVec w) :
    (interleave k w x).length = Config.keyLen k w := by simp [interleave]

/-- The bits of a key, pad bits included (40_interleaver.md R50, R55). -/
theorem bit_interleave (k w : Nat) (x : Nat → BitVec w) (i : Nat) :
    bit (interleave k w x) i = (decide (i < k * w) && (x (i % k)).getMsbD (i / k)) := by
  have hl := le_keyLen k w
  rw [interleave, bit_setBits _ _ (fun p hp => by
    have := List.mem_range.1 (List.mem_of_mem_filter hp)
    simp; omega), bit_zeros]
  simp [dimOf, posOf, cbit, Bool.decide_and]

theorem getMsbD_foldl_or {w : Nat} (l : List Nat) (p : Nat → Nat) (y : BitVec w) (m : Nat) (hm : m < w)
    (hp : ∀ i ∈ l, p i < w) :
    (l.foldl (fun y i => y ||| (1#w <<< (w - 1 - p i))) y).getMsbD m = (y.getMsbD m || l.any fun i => p i == m) := by
  induction l generalizing y with
  | nil => simp
  | cons i l ih =>
    have hi := hp i (by simp)
    have hbit : (1#w <<< (w - 1 - p i)).getMsbD m = (p i == m) := by
      rw [BitVec.getMsbD_eq_getLsbD, BitVec.getLsbD_shiftLeft, BitVec.getLsbD_one]
      rw [Bool.eq_iff_iff]
      simp only [Bool.and_eq_true, decide_eq_true_eq, Bool.not_eq_true', decide_eq_false_iff_not, beq_iff_eq]
      omega
    rw [List.foldl_cons, ih _ (fun j hj => hp j (by simp [hj])), BitVec.getMsbD_or, hbit, List.any_cons,
      Bool.or_assoc]

/-- The bits of a decoded coordinate (40_interleaver.md R51): MSB-first position `p` of dimension `d` comes from key bit
`p·k + d`. -/
theorem getMsbD_deinterleave {k w : Nat} (key : Buffer) {d p : Nat} (hd : d < k) (hp : p < w) :
    (deinterleave k w key d).getMsbD p = bit key (p * k + d) := by
  rw [deinterleave, getMsbD_foldl_or _ (posOf k) _ _ hp]
  · rw [Bool.eq_iff_iff]
    simp only [BitVec.getMsbD_zero, Bool.false_or, List.any_eq_true, List.mem_filter, List.mem_range,
      beq_iff_eq, Bool.and_eq_true, dimOf, posOf]
    constructor
    · rintro ⟨i, ⟨-, hid, hib⟩, hip⟩
      have : i = p * k + d := by rw [← hid, ← hip, Nat.mul_comm]; exact (Nat.div_add_mod i k).symm
      rwa [← this]
    · intro h
      have h1 : (p * k + d) % k = d := by
        rw [Nat.mul_comm, Nat.mul_add_mod, Nat.mod_eq_of_lt hd]
      have h2 : (p * k + d) / k = p := by
        rw [Nat.add_comm, Nat.add_mul_div_right _ _ (by omega), Nat.div_eq_of_lt hd, Nat.zero_add]
      refine ⟨p * k + d, ⟨?_, h1, h⟩, h2⟩
      calc p * k + d < p * k + k := by omega
        _ = (p + 1) * k := by ring
        _ ≤ w * k := Nat.mul_le_mul_right k hp
        _ = k * w := Nat.mul_comm w k
  · intro i hi
    have hik := List.mem_range.1 (List.mem_of_mem_filter hi)
    exact Nat.div_lt_of_lt_mul hik

/-! ## The prefix mask -/

@[simp] theorem length_prefixMask (k w n : Nat) : (prefixMask k w n).length = Config.keyLen k w := by simp [prefixMask]

/-- Exactly the leading `n` bits of the mask are 1 (41_prefixmask.md R56). -/
theorem bit_prefixMask {k w n : Nat} (h : n ≤ k * w) (i : Nat) : bit (prefixMask k w n) i = decide (i < n) := by
  have hl := le_keyLen k w
  rw [prefixMask, bit_setBits _ _ (fun p hp => by have := List.mem_range.1 hp; simp; omega), bit_zeros]
  simp

/-! ## Rendering -/

@[simp] theorem length_renderKey (k w : Nat) (key : Buffer) (n : Nat) :
    (renderKey k w key n).length = 8 * Config.keyLen k w := by simp [renderKey]

theorem getElem_renderKey {k w : Nat} (key : Buffer) (n : Nat) {i : Nat} (h : i < (renderKey k w key n).length) :
    (renderKey k w key n)[i] = renderChar key n i := by simp [renderKey]

/-! ## Bytewise operations -/

@[simp] theorem length_complement (b : Buffer) : (complement b).length = b.length := by simp [complement]

theorem bit_complement {b : Buffer} {i : Nat} (h : i < 8 * b.length) : bit (complement b) i = !bit b i := by
  have hj : i / 8 < b.length := by omega
  have hm : i % 8 < 8 := Nat.mod_lt _ (by omega)
  simp [bit, complement, hj, hm]

theorem length_conjunction {b1 b2 : Buffer} (h : b1.length = b2.length) : (conjunction b1 b2).length = b1.length := by
  simp [conjunction, h]

theorem bit_conjunction {b1 b2 : Buffer} (h : b1.length = b2.length) (i : Nat) :
    bit (conjunction b1 b2) i = (bit b1 i && bit b2 i) := by
  by_cases hj : i / 8 < b1.length
  · have hj2 : i / 8 < b2.length := h ▸ hj
    simp [bit, conjunction, hj, hj2]
  · rw [bit_of_le_length (by rw [length_conjunction h]; omega), bit_of_le_length (b := b1) (by omega)]
    rfl

theorem length_disjunction {b1 b2 : Buffer} (h : b1.length = b2.length) : (disjunction b1 b2).length = b1.length := by
  simp [disjunction, h]

theorem bit_disjunction {b1 b2 : Buffer} (h : b1.length = b2.length) (i : Nat) :
    bit (disjunction b1 b2) i = (bit b1 i || bit b2 i) := by
  by_cases hj : i / 8 < b1.length
  · have hj2 : i / 8 < b2.length := h ▸ hj
    simp [bit, disjunction, hj, hj2]
  · rw [bit_of_le_length (by rw [length_disjunction h]; omega), bit_of_le_length (b := b1) (by omega),
      bit_of_le_length (b := b2) (by omega)]
    rfl

theorem length_join3 (b1 b2 b3 : Buffer) : (join3 b1 b2 b3).length = b1.length + b2.length + b3.length := by
  simp [join3, Nat.add_assoc]

/-! ## Matching -/

/-- The bytes MATCH compares, one at a time (41_prefixmask.md R58). -/
theorem matchFlag_eq_true {k w n : Nat} {pre cand : Buffer} (hn : n ≤ k * w) (hp : Config.keyLen k w ≤ pre.length)
    (hc : Config.keyLen k w ≤ cand.length) :
    matchFlag k w pre n cand = true ↔
      ∀ i, i < 8 * Config.keyLen k w → bit pre i = (bit cand i && decide (i < n)) := by
  have hbyte : ∀ j, j < Config.keyLen k w →
      ((cand.getD j 0#8 &&& (prefixMask k w n).getD j 0#8) = pre.getD j 0#8 ↔
        ∀ m, m < 8 → bit pre (8 * j + m) = (bit cand (8 * j + m) && decide (8 * j + m < n))) := by
    intro j hj
    have hjp : j < pre.length := by omega
    have hjc : j < cand.length := by omega
    have hjm : j < (prefixMask k w n).length := by simpa using hj
    simp only [List.getD_eq_getElem _ _ hjp, List.getD_eq_getElem _ _ hjc, List.getD_eq_getElem _ _ hjm]
    constructor
    · intro h m hm
      rw [bit_byte hjp hm, bit_byte hjc hm, ← h, BitVec.getMsbD_and, ← bit_byte hjm hm, bit_prefixMask hn]
    · intro h
      refine BitVec.eq_of_getMsbD_eq fun m hm => ?_
      rw [BitVec.getMsbD_and, ← bit_byte hjm hm, bit_prefixMask hn, ← bit_byte hjp hm, ← bit_byte hjc hm, h m hm]
  simp only [matchFlag, List.all_eq_true, List.mem_range, beq_iff_eq]
  constructor
  · intro h i hi
    have := (hbyte (i / 8) (by omega)).1 (h _ (by omega)) (i % 8) (Nat.mod_lt _ (by omega))
    rwa [Nat.div_add_mod] at this
  · intro h j hj
    exact (hbyte j hj).2 fun m hm => h _ (by omega)

end Sys2Proof.Machine
end

