-- ==== Sys2Proof/Laws/CommandLine.lean ====
section
/-! SUPPORT. What each part of the assembler answers. -/

namespace Sys2Proof.Machine

theorem bind_eq_ok {α β ε : Type} {x : Except ε α} {f : α → Except ε β} {b : β} :
    (x >>= f) = .ok b ↔ ∃ a, x = .ok a ∧ f a = .ok b := by
  cases x with
  | error e => exact ⟨fun h => (by cases h), fun ⟨_, h, _⟩ => (by cases h)⟩
  | ok a => exact ⟨fun h => ⟨a, rfl, h⟩, fun ⟨_, h, h'⟩ => (by cases h; exact h')⟩

/-- A named result is read exactly when its line was answered without an error. -/
theorem namedResult_eq_ok {vars : HostVars} {n : HostName} {rsp : Response} :
    namedResult vars n = .ok rsp ↔ vars.lookup n = some rsp ∧ rsp.status = statusOk := by
  unfold namedResult
  cases vars.lookup n with
  | none => simp
  | some r =>
    by_cases hs : r.status = statusOk
    · simp only [if_pos hs, Except.ok.injEq, Option.some.injEq]
      exact ⟨fun h => ⟨h, h ▸ hs⟩, And.left⟩
    · simp only [if_neg hs, Option.some.injEq]
      exact ⟨fun h => (by cases h), fun ⟨h, h'⟩ => absurd (h ▸ h') hs⟩

theorem slotOf_eq_ok {lmax : Nat} {b : Buffer} {o : Option Buffer} :
    slotOf lmax b = .ok o ↔ b.length ≤ lmax ∧ o = some b := by
  unfold slotOf
  split <;> simp_all [eq_comm]

/-- Everything a buffer argument can become: the slot that holds it, at most LMAX bytes long. -/
theorem resolveBuffer_ok {lmax : Nat} {vars : HostVars} {arg : BufferArg} {o : Option Buffer}
    (h : resolveBuffer lmax vars arg = .ok o) :
    HoldsBuffer vars arg o.isSome (o.getD []) ∧ (o.getD []).length ≤ lmax := by
  cases arg with
  | literal b =>
    obtain ⟨h1, rfl⟩ := slotOf_eq_ok.1 h
    exact ⟨⟨rfl, rfl⟩, h1⟩
  | null =>
    cases h
    exact ⟨rfl, Nat.zero_le _⟩
  | resultOf n =>
    simp only [resolveBuffer] at h
    split at h
    · rename_i rsp hn
      obtain ⟨h1, rfl⟩ := slotOf_eq_ok.1 h
      exact ⟨⟨rfl, rsp, (namedResult_eq_ok.1 hn).1, (namedResult_eq_ok.1 hn).2, rfl⟩, h1⟩
    · cases h

/-- A coordinate argument becomes exactly the lanes that hold it. -/
theorem resolveLane_eq_ok {vars : HostVars} {arg : LaneArg} {v : Config.Lane} :
    resolveLane vars arg = .ok v ↔ HoldsLane vars arg v := by
  cases arg with
  | number n =>
    simp only [resolveLane, HoldsLane]
    refine ⟨fun h => ?_, fun h => ?_⟩
    · split at h
      · cases h
        exact Nat.mod_eq_of_lt ‹_›
      · cases h
    · have := v.isLt
      rw [if_pos (by omega), ← h]
      simp
  | resultOf n d =>
    simp only [resolveLane, HoldsLane]
    refine ⟨fun h => ?_, fun ⟨rsp, h1, h2, h3⟩ => ?_⟩
    · split at h
      · rename_i rsp hn
        split at h
        · rename_i hv
          cases h
          exact ⟨rsp, (namedResult_eq_ok.1 hn).1, (namedResult_eq_ok.1 hn).2, by simpa using hv⟩
        · cases h
      · cases h
    · simp only [namedResult_eq_ok.2 ⟨h1, h2⟩, show rsp.y.toList[d]? = some v by simpa using h3]

/-- A scalar argument becomes `ARG` exactly when it fits, and `ARG` then reads as it. -/
theorem resolveScalar_ok {n : Int} {w : Word} (h : resolveScalar n = .ok w) : ScalarFits n ∧ w.toInt = n := by
  unfold resolveScalar at h
  split at h
  · cases h
    refine ⟨‹_›, ?_⟩
    rw [BitVec.toInt_ofInt]
    apply Int.bmod_eq_of_le <;> omega
  · cases h

end Sys2Proof.Machine
end

