-- ==== Sys2Proof/Laws/Decode.lean ====
section
/-! SUPPORT. The fields of an encoded command word, and what the opcode map selects. -/

namespace Sys2Proof

/-- An encoded command word bit by bit (30_encoding.md R37). -/
theorem getLsbD_encodeFields (op : BitVec 8) (f : CwFields) (i : Nat) :
    (encodeFields op f).getLsbD i =
      if i < 8 then op.getLsbD i else if i = 8 then f.pa else if i = 9 then f.pb else if i = 10 then f.pc
      else if i < 16 then false else if i < 24 then (BitVec.ofNat 8 f.nc).getLsbD (i - 16) else false := by
  by_cases h : i < 32
  swap
  · rw [if_neg (by omega), if_neg (by omega), if_neg (by omega), if_neg (by omega), if_neg (by omega),
      if_neg (by omega)]
    exact BitVec.getLsbD_of_ge _ _ (by omega)
  change (BitVec.getLsbD (w := 8 + 8 + 5 + 1 + 1 + 1 + 8) (0#8 ++ BitVec.ofNat 8 f.nc ++ 0#5 ++ BitVec.ofBool f.pc ++
    BitVec.ofBool f.pb ++ BitVec.ofBool f.pa ++ op) i) = _
  simp only [BitVec.getLsbD_append, BitVec.getLsbD_ofBool, BitVec.getLsbD_zero]
  interval_cases i <;> simp

theorem cwOp_encodeFields (op : BitVec 8) (f : CwFields) : cwOp (encodeFields op f) = op := by
  refine BitVec.eq_of_getLsbD_eq fun i hi => ?_
  rw [cwOp, BitVec.getLsbD_extractLsb', getLsbD_encodeFields]
  interval_cases i <;> simp

theorem cwRsv0_encodeFields (op : BitVec 8) (f : CwFields) : cwRsv0 (encodeFields op f) = 0#5 := by
  refine BitVec.eq_of_getLsbD_eq fun i hi => ?_
  rw [cwRsv0, BitVec.getLsbD_extractLsb', getLsbD_encodeFields]
  interval_cases i <;> simp

theorem cwRsv1_encodeFields (op : BitVec 8) (f : CwFields) : cwRsv1 (encodeFields op f) = 0#8 := by
  refine BitVec.eq_of_getLsbD_eq fun i hi => ?_
  rw [cwRsv1, BitVec.getLsbD_extractLsb', getLsbD_encodeFields]
  interval_cases i <;> simp

theorem nc_encodeFields (op : BitVec 8) (f : CwFields) :
    (encodeFields op f).extractLsb' 16 8 = BitVec.ofNat 8 f.nc := by
  refine BitVec.eq_of_getLsbD_eq fun i hi => ?_
  rw [BitVec.getLsbD_extractLsb', getLsbD_encodeFields]
  interval_cases i <;> simp

/-- The fields of an encoded command word are those encoded, where NC fits its eight bits. -/
theorem cwFields_encodeFields (op : BitVec 8) {f : CwFields} (h : f.WellFormed) :
    cwFields (encodeFields op f) = f := by
  obtain ⟨pa, pb, pc, nc⟩ := f
  have hn : nc < 256 := by simpa [CwFields.WellFormed, Config.NCMAX, Nat.lt_succ_iff] using h
  simp only [cwFields, nc_encodeFields, BitVec.toNat_ofNat, CwFields.mk.injEq]
  refine ⟨?_, ?_, ?_, Nat.mod_eq_of_lt hn⟩ <;> rw [getLsbD_encodeFields] <;> rfl

/-- A command word whose reserved bits are zero is determined by its opcode and fields. -/
theorem encodeFields_cwFields {cw : Word} (h0 : cwRsv0 cw = 0#5) (h1 : cwRsv1 cw = 0#8) :
    encodeFields (cwOp cw) (cwFields cw) = cw := by
  have e0 : ∀ i, i < 5 → cw.getLsbD (11 + i) = false := fun i hi => by
    have := congrArg (fun v => v.getLsbD i) h0
    simpa [cwRsv0, hi] using this
  have e1 : ∀ i, i < 8 → cw.getLsbD (24 + i) = false := fun i hi => by
    have := congrArg (fun v => v.getLsbD i) h1
    simpa [cwRsv1, hi] using this
  refine BitVec.eq_of_getLsbD_eq fun i hi => ?_
  rw [getLsbD_encodeFields]
  by_cases h8 : i < 8
  · simp [h8, cwOp]
  rw [if_neg h8]
  split_ifs with ha hb hc hr hn
  · subst ha; rfl
  · subst hb; rfl
  · subst hc; rfl
  · rw [← e0 (i - 11) (by omega)]; congr 1; omega
  · simp only [cwFields, BitVec.ofNat_toNat, BitVec.setWidth_eq, BitVec.getLsbD_extractLsb']
    rw [decide_eq_true (by omega), Bool.true_and]; congr 1; omega
  · rw [← e1 (i - 24) (by omega)]; congr 1; omega

theorem cwFields_wellFormed (cw : Word) : (cwFields cw).WellFormed := by
  have := (cw.extractLsb' 16 8).isLt
  simp only [CwFields.WellFormed, cwFields, Config.NCMAX]
  omega

/-- The opcode map selects exactly the command with that opcode and those fields. -/
theorem decodeOp_eq_some {op : BitVec 8} {f : CwFields} {i : Instr} :
    decodeOp op f = some i ↔ opcode i = op ∧ i.fields = f := by
  constructor
  · intro h
    unfold decodeOp at h
    split_ifs at h <;> cases h <;> simp_all [opcode, Instr.fields]
  · rintro ⟨rfl, rfl⟩
    cases i <;> rfl

/-- The decoder's answers: the reserved bits are zero and the opcode map selects the command. -/
theorem decode_eq_ok {cw : Word} {i : Instr} :
    decode cw = .ok i ↔ cwRsv0 cw = 0#5 ∧ cwRsv1 cw = 0#8 ∧ opcode i = cwOp cw ∧ i.fields = cwFields cw := by
  unfold decode
  by_cases h : cwRsv0 cw ≠ 0 ∨ cwRsv1 cw ≠ 0
  · rw [if_pos h]
    simp only [reduceCtorEq, false_iff]
    rintro ⟨h0, h1, -⟩
    exact h.elim (fun e => e h0) (fun e => e h1)
  · rw [if_neg h]
    push Not at h
    rw [← decodeOp_eq_some]
    cases hd : decodeOp (cwOp cw) (cwFields cw) <;> simp [h.1, h.2]

/-- The bits the decoder's mask keeps of an encoded command word are the opcode (30_encoding.md R38). -/
theorem encodeFields_and_mask (op : BitVec 8) (f : CwFields) :
    encodeFields op f &&& opcodeMask = op.setWidth 32 := by
  refine BitVec.eq_of_getLsbD_eq fun i hi => ?_
  rw [BitVec.getLsbD_and, getLsbD_encodeFields, BitVec.getLsbD_setWidth, opcodeMask]
  interval_cases i <;> simp

end Sys2Proof
end

