-- ==== Sys2Proof/Laws/Operands.lean ====
section
/-! SUPPORT. What reading an operand of a request can give. -/

namespace Sys2Proof.Machine

/-- A slot gives its bytes exactly when it is present. -/
theorem operand_eq_some {f : CwFields} {q : Request} {slot : Slot} {b : Buffer} :
    operand f q slot = some b ↔ present f slot = true ∧ slotBytes q slot = b := by
  simp [operand]

theorem operand_eq_none {f : CwFields} {q : Request} {slot : Slot} :
    operand f q slot = none ↔ present f slot = false := by
  simp [operand]

/-- A carried lane reads as it is carried. -/
theorem lane_of_carried {q : Request} {d : Nat} {v : Config.Lane} (h : q.x[d]? = some v) : lane q d = v := by
  simp [lane, h]

/-- A scalar is no prefix length exactly outside [1, K·W]. -/
theorem prefixLength_eq_none {k w : Nat} {n : Int} :
    prefixLength k w n = none ↔ n < 1 ∨ ((k * w : Nat) : Int) < n := by
  unfold prefixLength
  split <;> simp_all

/-- A scalar in [1, K·W] is the prefix length it says. -/
theorem prefixLength_eq_some {k w m : Nat} {n : Int} :
    prefixLength k w n = some m ↔ 1 ≤ m ∧ m ≤ k * w ∧ n = m := by
  unfold prefixLength
  generalize k * w = kw
  split <;> simp <;> omega

/-- A scalar is no bit position of the buffer exactly outside [0, 8·len). -/
theorem bitPosition_eq_none {len : Nat} {n : Int} :
    bitPosition len n = none ↔ n < 0 ∨ ((8 * len : Nat) : Int) ≤ n := by
  unfold bitPosition
  split <;> simp_all

/-- A scalar in [0, 8·len) is the bit position it says. -/
theorem bitPosition_eq_some {len p : Nat} {n : Int} :
    bitPosition len n = some p ↔ p < 8 * len ∧ n = p := by
  unfold bitPosition
  split <;> simp <;> omega

end Sys2Proof.Machine
end

