-- ==== Sys2Proof/Laws/PerInstr.lean ====
section
/-! SUPPORT. Facts about every command as syntax, one lemma per constructor. -/

namespace Sys2Proof.Laws.FixedBits

/-- The fixed bits of a command's word, those under the mask 0xFF00F8FF, are its opcode (30_encoding.md R38). -/
def Statement (i : Instr) : Prop := encode i &&& opcodeMask = (opcode i).setWidth 32

theorem encode (f : CwFields) : Statement (.encode f) := encodeFields_and_mask _ _
theorem decode (f : CwFields) : Statement (.decode f) := encodeFields_and_mask _ _
theorem makeMask (f : CwFields) : Statement (.makeMask f) := encodeFields_and_mask _ _
theorem matchPrefix (f : CwFields) : Statement (.matchPrefix f) := encodeFields_and_mask _ _
theorem render (f : CwFields) : Statement (.render f) := encodeFields_and_mask _ _
theorem bufNot (f : CwFields) : Statement (.bufNot f) := encodeFields_and_mask _ _
theorem bufAnd (f : CwFields) : Statement (.bufAnd f) := encodeFields_and_mask _ _
theorem bufOr (f : CwFields) : Statement (.bufOr f) := encodeFields_and_mask _ _
theorem setBit (f : CwFields) : Statement (.setBit f) := encodeFields_and_mask _ _
theorem concat (f : CwFields) : Statement (.concat f) := encodeFields_and_mask _ _

end Sys2Proof.Laws.FixedBits
end

