-- ==== Sys2Proof/Laws/State.lean ====
section
/-! SUPPORT. What each update of the state and each constructor of a response does to each field. -/

namespace Sys2Proof.Machine

@[simp] theorem State.answer_requests (s : State) (rsp : Response) : (s.answer rsp).requests = s.requests.tail := rfl
@[simp] theorem State.answer_responses (s : State) (rsp : Response) :
    (s.answer rsp).responses = s.responses ++ [rsp] := rfl
@[simp] theorem State.issue_requests (s : State) (q : Request) : (s.issue q).requests = s.requests ++ [q] := rfl
@[simp] theorem State.issue_responses (s : State) (q : Request) : (s.issue q).responses = s.responses := rfl
@[simp] theorem State.assertReset_requests (s : State) : s.assertReset.requests = [] := rfl
@[simp] theorem State.assertReset_responses (s : State) : s.assertReset.responses = s.responses := rfl
@[simp] theorem State.reset_requests : State.reset.requests = [] := rfl
@[simp] theorem State.reset_responses : State.reset.responses = [] := rfl

theorem State.takeResponse_eq_some {s t : State} {rsp : Response} :
    s.takeResponse = some (rsp, t) ↔ s.responses = rsp :: t.responses ∧ t.requests = s.requests := by
  obtain ⟨qs, rs⟩ := s
  obtain ⟨qs', rs'⟩ := t
  cases rs with
  | nil => simp [State.takeResponse]
  | cons r rest => simp [State.takeResponse]; grind

@[simp] theorem zeroResponse_status : zeroResponse.status = statusOk := rfl
@[simp] theorem zeroResponse_r : zeroResponse.r = [] := rfl
@[simp] theorem zeroResponse_y : zeroResponse.y = Vector.replicate Config.K 0#32 := rfl
@[simp] theorem zeroResponse_flag : zeroResponse.flag = false := rfl
@[simp] theorem okBuffer_status (b : Buffer) : (okBuffer b).status = statusOk := rfl
@[simp] theorem okBuffer_r (b : Buffer) : (okBuffer b).r = b := rfl
@[simp] theorem okBuffer_y (b : Buffer) : (okBuffer b).y = Vector.replicate Config.K 0#32 := rfl
@[simp] theorem okBuffer_flag (b : Buffer) : (okBuffer b).flag = false := rfl
@[simp] theorem okLanes_status (y : Nat → Config.Lane) : (okLanes y).status = statusOk := rfl
@[simp] theorem okLanes_r (y : Nat → Config.Lane) : (okLanes y).r = [] := rfl
@[simp] theorem okLanes_flag (y : Nat → Config.Lane) : (okLanes y).flag = false := rfl
@[simp] theorem okFlag_status (f : Bool) : (okFlag f).status = statusOk := rfl
@[simp] theorem okFlag_r (f : Bool) : (okFlag f).r = [] := rfl
@[simp] theorem okFlag_y (f : Bool) : (okFlag f).y = Vector.replicate Config.K 0#32 := rfl
@[simp] theorem okFlag_flag (f : Bool) : (okFlag f).flag = f := rfl
@[simp] theorem raise_status (e : Condition) : (raise e).status = statusCode e := rfl
@[simp] theorem raise_r (e : Condition) : (raise e).r = [] := rfl
@[simp] theorem raise_y (e : Condition) : (raise e).y = Vector.replicate Config.K 0#32 := rfl
@[simp] theorem raise_flag (e : Condition) : (raise e).flag = false := rfl

theorem okLanes_y (y : Nat → Config.Lane) (d : Nat) (h : d < Config.K) : (okLanes y).y[d] = y d := by
  simp [okLanes]

end Sys2Proof.Machine
end

