-- ==== Sys2Proof/Laws/Transact.lean ====
section
/-! SUPPORT. What one transaction, one command and one step can do. -/

namespace Sys2Proof.Machine

theorem transact_of_request {s : State} {q : Request} {rest : List Request} (f : Request → Response)
    (h : s.requests = q :: rest) : transact f s = .next (s.answer (f q)) := by
  simp [transact, currentRequest, h]

/-- Everything a transaction that answers can do: it consumes the oldest request and appends one response. -/
theorem transact_next {f : Request → Response} {s t : State} (h : transact f s = .next t) :
    ∃ q rest, s.requests = q :: rest ∧ t = s.answer (f q) := by
  cases hs : s.requests with
  | nil => simp [transact, currentRequest, hs] at h
  | cons q rest => exact ⟨q, rest, rfl, by simpa [transact, currentRequest, hs] using h.symm⟩

/-- Every command is one transaction with its response function. -/
theorem exec_eq_transact (i : Instr) (s : State) : exec i s = transact (responseOf i) s := by
  cases i <;> rfl

theorem exec_of_request (i : Instr) {s : State} {q : Request} {rest : List Request} (h : s.requests = q :: rest) :
    exec i s = .next (s.answer (responseOf i q)) := by
  rw [exec_eq_transact, transact_of_request _ h]

theorem step_of_idle {s : State} (h : s.requests = []) : step s = .next s := by
  simp [step, currentRequest, h]

/-- A step with a request at the port answers it by the function of R11. -/
theorem step_of_request {s : State} {q : Request} {rest : List Request} (h : s.requests = q :: rest) :
    step s = .next (s.answer (respond q)) := by
  unfold step respond
  simp only [currentRequest, h, List.head?_cons]
  cases decode q.cw with
  | error e => exact transact_of_request _ h
  | ok i => exact exec_of_request i h

/-- Everything a step can do: nothing at an idle port, else one transaction. -/
theorem step_cases (s : State) :
    (s.requests = [] ∧ step s = .next s) ∨
    (∃ q rest, s.requests = q :: rest ∧ step s = .next (s.answer (respond q))) := by
  cases h : s.requests with
  | nil => exact .inl ⟨rfl, step_of_idle h⟩
  | cons q rest => exact .inr ⟨q, rest, rfl, step_of_request h⟩

/-- A run of `n + 1` steps is its first step and then a run of `n`. -/
theorem run_of_step {n : Nat} {s t : State} (h : step s = .next t) : core.run (n + 1) s = core.run n t := by
  have run_next : ∀ (M : Host.Core) (s t : M.State), M.step s = .next t → M.run (n + 1) s = M.run n t := by
    intro M s t h
    simp [Host.Core.run, h]
  exact run_next core s t h

end Sys2Proof.Machine
end

