-- ==== Sys2Proof/Laws/Responses.lean ====
section
/-! SUPPORT. The response of each command when every check passes, and that every response is a success or a condition
raised. -/

namespace Sys2Proof.Machine

variable {f : CwFields} {q : Request}

theorem encodeResponse_ok (h : f.nc = Config.K) :
    encodeResponse f q = okBuffer (interleave Config.K Config.W (lane q)) := by
  simp [encodeResponse, h]

theorem decodeResponse_ok (ha : f.pa = true) (hl : q.a.length = Config.KEYLEN) :
    decodeResponse f q = okLanes (deinterleave Config.K Config.W q.a) := by
  simp [decodeResponse, operand, present, slotBytes, ha, hl]

theorem makeMaskResponse_ok {n : Nat} (hn : prefixLength Config.K Config.W (scalar q) = some n) :
    makeMaskResponse q = okBuffer (prefixMask Config.K Config.W n) := by
  simp only [makeMaskResponse, hn]

theorem matchResponse_ok {n : Nat} (ha : f.pa = true) (hb : f.pb = true)
    (hn : prefixLength Config.K Config.W (scalar q) = some n) (hla : Config.KEYLEN ≤ q.a.length)
    (hlb : Config.KEYLEN ≤ q.b.length) :
    matchResponse f q = okFlag (matchFlag Config.K Config.W q.a n q.b) := by
  simp only [matchResponse, operand, present, slotBytes, ha, hb, if_true, hn]
  rw [if_neg (by omega)]

theorem renderResponse_ok {n : Nat} (ha : f.pa = true) (hn : prefixLength Config.K Config.W (scalar q) = some n)
    (hl : q.a.length = Config.KEYLEN) :
    renderResponse f q = okBuffer (renderKey Config.K Config.W q.a n) := by
  simp only [renderResponse, operand, present, slotBytes, ha, if_true, hn, hl, ne_eq, not_true, if_false]

theorem notResponse_ok (ha : f.pa = true) : notResponse f q = okBuffer (complement q.a) := by
  simp [notResponse, operand, present, slotBytes, ha]

theorem andResponse_ok (ha : f.pa = true) (hb : f.pb = true) (hl : q.a.length = q.b.length) :
    andResponse f q = okBuffer (conjunction q.a q.b) := by
  simp [andResponse, operand, present, slotBytes, ha, hb, hl]

theorem orResponse_ok (ha : f.pa = true) (hb : f.pb = true) (hl : q.a.length = q.b.length) :
    orResponse f q = okBuffer (disjunction q.a q.b) := by
  simp [orResponse, operand, present, slotBytes, ha, hb, hl]

theorem setBitResponse_ok {pos : Nat} (ha : f.pa = true) (hp : bitPosition q.a.length (scalar q) = some pos) :
    setBitResponse f q = okBuffer (withBit1 q.a pos) := by
  simp only [setBitResponse, operand, present, slotBytes, ha, if_true, hp]

theorem concatResponse_ok (ha : f.pa = true) (hb : f.pb = true) (hc : f.pc = true) :
    concatResponse f q = okBuffer (join3 q.a q.b q.c) := by
  simp [concatResponse, operand, present, slotBytes, ha, hb, hc]

/-- Every response of a command is a success with a buffer, with coordinates or with a flag, or a condition raised other
than `IllegalCommand`. -/
theorem responseOf_cases (i : Instr) (q : Request) :
    (∃ b, responseOf i q = okBuffer b) ∨ (∃ y, responseOf i q = okLanes y) ∨ (∃ v, responseOf i q = okFlag v) ∨
    (∃ e, e ≠ Condition.illegalCommand ∧ responseOf i q = raise e) := by
  cases i <;>
    simp only [responseOf, encodeResponse, decodeResponse, makeMaskResponse, matchResponse, renderResponse,
      notResponse, andResponse, orResponse, setBitResponse, concatResponse] <;>
    (repeat' split) <;>
    first
      | exact .inl ⟨_, rfl⟩
      | exact .inr (.inl ⟨_, rfl⟩)
      | exact .inr (.inr (.inl ⟨_, rfl⟩))
      | exact .inr (.inr (.inr ⟨_, by decide, rfl⟩))

end Sys2Proof.Machine
end

