-- ==== Sys2Proof/Tests/Slice0.lean ====
section
/-! SUPPORT. The model's own tests: checks refuse ill-formed terms, words written out from the encoding table decode,
single steps on the vectors of 95_test_vectors.md, and a witness for the hypotheses of every statement. -/

namespace Sys2Proof.Tests

open Sys2Proof Sys2Proof.Machine

/-! ## WellFormed refuses -/

theorem test_wf_refuses_lane_count_256 : ¬ (Instr.encode ⟨false, false, false, 256⟩).WellFormed := by decide
theorem test_wf_refuses_long_slot_a : ¬ Request.WellFormed 12 { blankRequest with a := zeros 13 } := by decide
theorem test_wf_refuses_long_slot_b : ¬ Request.WellFormed 12 { blankRequest with b := zeros 13 } := by decide
theorem test_wf_refuses_long_slot_c : ¬ Request.WellFormed 12 { blankRequest with c := zeros 13 } := by decide
theorem test_wf_refuses_missing_lane : ¬ Request.WellFormed 12 { blankRequest with cw := 0x00030001, x := [1, 2] } := by
  decide

/-! ## Decoding, words written out bit by bit from the encoding strings of opcode_table.json -/

theorem test_decode_ENCODE :
    decode 0b00000000111111110000010100000001#32 = .ok (.encode ⟨true, false, true, 255⟩) := by decide
theorem test_decode_DECODE :
    decode 0b00000000000000000000000100000010#32 = .ok (.decode ⟨true, false, false, 0⟩) := by decide
theorem test_decode_MAKEMASK :
    decode 0b00000000000001110000000000010000#32 = .ok (.makeMask ⟨false, false, false, 7⟩) := by decide
theorem test_decode_MATCH :
    decode 0b00000000000000000000001000010001#32 = .ok (.matchPrefix ⟨false, true, false, 0⟩) := by decide
theorem test_decode_RENDER :
    decode 0b00000000000000000000000100010010#32 = .ok (.render ⟨true, false, false, 0⟩) := by decide
theorem test_decode_NOT :
    decode 0b00000000000000000000010000100000#32 = .ok (.bufNot ⟨false, false, true, 0⟩) := by decide
theorem test_decode_AND :
    decode 0b00000000000000000000001100100001#32 = .ok (.bufAnd ⟨true, true, false, 0⟩) := by decide
theorem test_decode_OR :
    decode 0b00000000100000000000001100100010#32 = .ok (.bufOr ⟨true, true, false, 128⟩) := by decide
theorem test_decode_SETBIT :
    decode 0b00000000000000000000000100100011#32 = .ok (.setBit ⟨true, false, false, 0⟩) := by decide
theorem test_decode_CONCAT :
    decode 0b00000000000000000000011100100100#32 = .ok (.concat ⟨true, true, true, 0⟩) := by decide
/-- V-IL1 to V-IL5. -/
theorem test_decode_unassigned :
    [0x00, 0x03, 0x13, 0x25, 0xFF].map decode = List.replicate 5 (.error .unassignedOpcode) := by decide +kernel
/-- V-IL6 to V-IL10. -/
theorem test_decode_reserved :
    [0x00000810, 0x00008120, 0x01030001, 0x80000724, 0x00000803].map decode =
      List.replicate 5 (.error .reservedBitSet) := by decide +kernel
theorem test_encode_CONCAT : encode (.concat ⟨true, false, true, 0⟩) = 0x00000524 := by decide
theorem test_decodeTableWord_ENCODE : decodeTableWord 32 0x00000001 = some (.encode ⟨false, false, false, 0⟩) := by decide

/-! ## Single steps on the vectors of 95_test_vectors.md -/

/-- A machine with one request at the port. -/
def portWith (q : Request) : State := { requests := [q], responses := [] }

/-- The response a step gives to one request. -/
def answerTo (q : Request) : Option Response :=
  match step (portWith q) with
  | .next s => s.responses.head?
  | _ => none

/-- A request with its command word and scalar and no operand. -/
def req (cw arg : Word) : Request := { blankRequest with cw := cw, arg := arg }

/-- An error response: the status alone. -/
def err (code : BitVec 8) : Response := { zeroResponse with status := code }

/-- K592 of 95_test_vectors.md section 2. -/
def k592 : Buffer := [0, 0, 0, 0, 0, 0, 0, 0, 0, 0, 0x05, 0x0E]

theorem test_ENCODE_V_EN13 :
    answerTo { req 0x00030001 0 with x := [0x12345678, 0x9ABCDEF0, 0x0F1E2D3C] } =
      some (okBuffer [0x40, 0x66, 0x79, 0x43, 0x77, 0xC8, 0x58, 0xE7, 0xF1, 0x5B, 0xFA, 0x40]) := by decide +kernel
theorem test_ENCODE_V_EN18 : answerTo { req 0x00040001 0 with x := [1, 2, 3, 4] } = some (err 0x01) := by decide
theorem test_DECODE_V_DE8 :
    answerTo { req 0x00000102 0 with a := [0x80, 0, 0, 0, 0, 0, 0, 0, 0, 0, 0, 0x01] } =
      some { zeroResponse with y := #v[0x80000000, 0, 1] } := by decide +kernel
theorem test_DECODE_V_DE12 : answerTo { req 0x00000102 0 with a := zeros 13 } = some (err 0x02) := by decide
theorem test_MAKEMASK_V_MM8 :
    answerTo (req 0x00000010 17) = some (okBuffer [0xFF, 0xFF, 0x80, 0, 0, 0, 0, 0, 0, 0, 0, 0]) := by decide +kernel
theorem test_MAKEMASK_V_MM16 : answerTo (req 0x00000010 0x80000000) = some (err 0x03) := by decide
theorem test_MATCH_V_MA7 :
    answerTo { req 0x00000311 12 with a := k592, b := k592 } = some (okFlag false) := by decide +kernel
theorem test_MATCH_V_MA13 :
    answerTo { req 0x00000311 12 with a := zeros 12 ++ [0xAA, 0xBB], b := k592 ++ [0xCC] } = some (okFlag true) := by
  decide +kernel
theorem test_RENDER_V_RE5 :
    answerTo { req 0x00000112 7 with a := [0x92, 0x49, 0x24, 0x92, 0x49, 0x24, 0x92, 0x49, 0x24, 0x92, 0x49, 0x24] } =
      some (okBuffer ([0x31, 0x30, 0x30, 0x31, 0x30, 0x30, 0x31] ++ List.replicate 89 0x2A)) := by decide +kernel
theorem test_RENDER_V_RE11 : answerTo { req 0x00000112 0 with a := zeros 11 } = some (err 0x03) := by decide
theorem test_NOT_V_NO6 :
    answerTo { req 0x00000320 9 with a := [0x0F], b := [0x01, 0x02] } = some (okBuffer [0xF0]) := by decide
theorem test_NOT_V_NO5 : answerTo (req 0x00000020 0) = some (err 0x06) := by decide
theorem test_AND_V_AN1 :
    answerTo { req 0x00000321 0 with a := [0xF0, 0x0F], b := [0x3C, 0x3C] } = some (okBuffer [0x30, 0x0C]) := by decide
theorem test_AND_V_AN7 : answerTo { req 0x00000321 0 with a := zeros 2, b := zeros 3 } = some (err 0x04) := by decide
theorem test_OR_V_OR1 :
    answerTo { req 0x00000322 0 with a := [0xF0, 0x0F], b := [0x3C, 0x3C] } = some (okBuffer [0xFC, 0x3F]) := by decide
theorem test_OR_V_OR6 : answerTo { req 0x00000222 0 with b := [0] } = some (err 0x06) := by decide
theorem test_SETBIT_V_SB13 :
    answerTo { req 0x00000123 15 with a := [0x12, 0x34, 0x56] } = some (okBuffer [0x12, 0x35, 0x56]) := by decide
theorem test_SETBIT_V_SB9 : answerTo { req 0x00000123 0xFFFFFFFF with a := zeros 12 } = some (err 0x05) := by decide
theorem test_CONCAT_V_CC1 :
    answerTo { req 0x00000724 0 with a := [0x01, 0x02], c := [0xFF] } = some (okBuffer [0x01, 0x02, 0xFF]) := by decide
theorem test_CONCAT_V_CC6 : answerTo { req 0x00000524 0 with a := [0x01], c := [0x02] } = some (err 0x06) := by decide
/-- IllegalCommand has priority over NullArgument. -/
theorem test_illegal_V_IL11 : answerTo (req 0x00000802 0) = some (err 0x80) := by decide
/-- V-MA14: a prefix one byte short. -/
theorem test_MATCH_too_short : answerTo { req 0x00000311 12 with a := zeros 11, b := k592 } = some (err 0x07) := by decide

/-- The first step after reset runs the instruction placed by withFetchWord (40_interleaver.md R50: all lanes zero). -/
theorem test_withFetchWord_runs_ENCODE :
    step (State.reset.withFetchWord 32 0x00030001) =
      .next { requests := [], responses := [okBuffer (zeros 12)] } := by rfl

/-! ## Command lines (30_encoding.md R48) -/

theorem test_readLine :
    readLine "f1 <- MATCH p.R, 12, [0a Ff] ; x".toList =
    .ok { name := some "f1".toList, command := .matchPrefix (.resultOf "p".toList) 12 (.literal [0x0A, 0xFF]) } := by decide +kernel
theorem test_readLine_lanes :
    readLine "ENCODE 0x1f, 10, k.Y[2]".toList =
    .ok { name := none, command := .encode [.number 31, .number 10, .resultOf "k".toList 2] } := by decide +kernel
/-- V-SB12: `SETBIT null, -5` is CW 0x00000023, ARG 0xFFFFFFFB. -/
theorem test_assemble_V_SB12 : assemble 12 [] (.setBit .null (-5)) = .ok (req 0x00000023 0xFFFFFFFB) := by rfl
theorem test_assemble_refuses_wide_coordinate :
    assemble 12 [] (.encode [.number 0x100000000]) = .error .coordinateOutOfRange := by rfl

/-! ## Witnesses: the hypotheses of each statement are met together -/

theorem witness_DecodeOfEncodeIsTheCommand :
    (Instr.concat ⟨true, true, true, 255⟩).WellFormed ∧ (Instr.encode ⟨false, false, false, 0⟩).WellFormed := by decide
theorem witness_DecodedWordIsTheEncoding : decode 0x00FF0724 = .ok (.concat ⟨true, true, true, 255⟩) := by decide
theorem witness_MaskedWordSelectsCommand :
    (⟨true, true, true, 255⟩ : CwFields) =
      ⟨(0x00FF0724#32).getLsbD 8, (0x00FF0724#32).getLsbD 9, (0x00FF0724#32).getLsbD 10,
        ((0x00FF0724#32).toNat / 2 ^ 16) % 256⟩ := by decide
/-- An unassigned opcode, the highest bit of RSV0, the lowest bit of RSV1, and the last assigned opcode. -/
theorem witness_IllegalWordIsAnsweredIllegal :
    (portWith (req 0x00000025 0)).requests = [req 0x00000025 0] ∧
    (0x00000025#32).toNat % 256 ∉ [0x01, 0x02, 0x10, 0x11, 0x12, 0x20, 0x21, 0x22, 0x23, 0x24] ∧
    ((0x00008024#32).toNat / 2 ^ 11) % 32 ≠ 0 ∧ (0x01000024#32).toNat / 2 ^ 24 ≠ 0 ∧
    ((0x00FF0724#32).toNat % 256 ∈ [0x01, 0x02, 0x10, 0x11, 0x12, 0x20, 0x21, 0x22, 0x23, 0x24] ∧
      ((0x00FF0724#32).toNat / 2 ^ 11) % 32 = 0 ∧ (0x00FF0724#32).toNat / 2 ^ 24 = 0) := by decide
theorem witness_StepRunsTheDecodedCommand :
    (portWith (req 0x00000024 0)).requests = req 0x00000024 0 :: [] ∧
    decode 0x00000024 = .ok (.concat ⟨false, false, false, 0⟩) ∧ decode 0x00000025 = .error .unassignedOpcode ∧
    State.reset.requests = [] := by decide
theorem witness_ResponseIsAFunctionOfTheRequest :
    (portWith (req 0x20 0)).requests = req 0x20 0 :: [] ∧
    ({ requests := [req 0x20 0, req 0 0], responses := [err 0x01] } : State).requests = req 0x20 0 :: [req 0 0] := by decide
theorem witness_EveryCommandIsOneTransaction :
    exec (.bufNot ⟨false, false, false, 0⟩) (portWith (req 0x20 0)) = .next { requests := [], responses := [err 0x06] } ∧
    exec (.bufNot ⟨false, false, false, 0⟩) State.reset = .fault .noRequest := ⟨rfl, rfl⟩
theorem witness_ErrorLeavesNoTrace :
    ({ requests := [req 0 0, req 0x10 1], responses := [] } : State).requests = req 0 0 :: req 0x10 1 :: [] ∧
    (respond (req 0 0)).status ≠ 0x00 := by decide
/-- The cases of the status statements at their boundaries: scalars 0, 1, 96, 97 and the last and first excluded bit
position of a one-byte buffer. -/
theorem witness_StatusIsTheFirstFailingCheck :
    (portWith (req 0x10 96)).requests = req 0x10 96 :: [] ∧ decode 0x10 = .ok (.makeMask ⟨false, false, false, 0⟩) ∧
    decode 0x00 = .error .unassignedOpcode ∧
    (answerTo (req 0x10 0)).map (·.status) = some 0x03 ∧ (answerTo (req 0x10 1)).map (·.status) = some 0x00 ∧
    (answerTo (req 0x10 96)).map (·.status) = some 0x00 ∧ (answerTo (req 0x10 97)).map (·.status) = some 0x03 ∧
    (answerTo { req 0x123 7 with a := [0] }).map (·.status) = some 0x00 ∧
    (answerTo { req 0x123 8 with a := [0] }).map (·.status) = some 0x05 := by decide +kernel
theorem witness_ConditionsRaisedExactlyWhen :
    (portWith (req 0x00020001 0)).requests = req 0x00020001 0 :: [] ∧
    (answerTo (req 0x00020001 0)).map (·.status) = some 0x01 ∧
    (answerTo { req 0x321 0 with a := [0] }).map (·.status) = some 0x04 ∧
    (answerTo { req 0x123 8 with a := [0] }).map (·.status) = some 0x05 ∧
    (answerTo (req 0x324 0)).map (·.status) = some 0x06 := by decide +kernel
theorem witness_ErrorResponseIsStatusAlone :
    (portWith (req 0 0)).requests = req 0 0 :: [] ∧ (answerTo (req 0 0)).map (·.status) = some 0x80 := by decide
theorem witness_FieldsWrittenOnSuccess :
    (portWith { req 0x120 0 with a := [0x0F] }).requests = { req 0x120 0 with a := [0x0F] } :: [] ∧
    answerTo { req 0x120 0 with a := [0x0F] } = some (okBuffer [0xF0]) := by decide
/-- NOT with PB and an absent slot's bytes differing: the two requests agree on what NOT reads. -/
theorem witness_UnreadFieldsAreIgnored :
    opcode (.bufNot ⟨true, false, false, 0⟩) = opcode (.bufNot ⟨true, true, false, 7⟩) ∧
    AgreeOn (readSet (.bufNot ⟨true, false, false, 0⟩)) ⟨true, false, false, 0⟩ ⟨true, true, false, 7⟩
      { req 0x120 0 with a := [0x0F] } { req 0x320 9 with a := [0x0F], b := [0x01] } := by
  refine ⟨rfl, fun _ => rfl, ?_, ?_, ?_, ?_⟩ <;> intro h <;> cases h
/-- ENCODE with equal lane counts and lanes and different scalars. -/
theorem witness_UnreadFieldsAreIgnored_lanes :
    AgreeOn (readSet (.encode ⟨false, false, false, 1⟩)) ⟨false, false, false, 1⟩ ⟨true, false, false, 1⟩
      { req 0x00010001 0 with x := [5] } { req 0x00010101 9 with x := [5] } := by
  refine ⟨?_, ?_, ?_, ?_, fun _ => ⟨rfl, fun d hd => ?_⟩⟩
  · intro h; cases h
  · intro h; cases h
  · intro h; cases h
  · intro h; cases h
  · have : d = 0 := Nat.lt_one_iff.1 hd
    subst this; rfl
theorem witness_LawfulPortsAreKept :
    Config.AdmittedLMAX 12 ∧ LawfulPorts 12 { requests := [req 0x10 0], responses := [okBuffer (zeros 96)] } ∧
    step { requests := [req 0x10 0], responses := [okBuffer (zeros 96)] } =
      .next { requests := [], responses := [okBuffer (zeros 96), err 0x03] } := by
  refine ⟨by decide, by decide +kernel, rfl⟩
theorem witness_BitNumbering : 0 < 8 * k592.length ∧ 95 < 8 * k592.length ∧ bit k592 94 = true ∧ 31 < 32 := by decide
theorem witness_EncodeInterleavesTheLanes :
    (portWith { req 0x00030001 0 with x := [5, 9, 2] }).requests = { req 0x00030001 0 with x := [5, 9, 2] } :: [] ∧
    (⟨false, false, false, 3⟩ : CwFields).nc = 3 ∧ ([5, 9, 2] : List Config.Lane)[2]? = some 2 := by decide
theorem witness_DecodeRoutesKeyBitsBack :
    (portWith { req 0x102 0 with a := k592 }).requests = { req 0x102 0 with a := k592 } :: [] ∧ k592.length = 12 := by decide
theorem witness_DecodeOfEncodeIsTheCoordinates :
    (portWith { req 0x00030001 0 with x := [5, 9, 2] }).requests = { req 0x00030001 0 with x := [5, 9, 2] } :: [] ∧
    (portWith { req 0x102 0 with a := k592 }).requests = { req 0x102 0 with a := k592 } :: [] ∧
    interleave 3 32 (lane { req 0x00030001 0 with x := [5, 9, 2] }) = k592 := by decide +kernel
theorem witness_EncodeOfDecodeIsTheKey :
    k592.length = Config.keyLen 3 32 ∧ ([0x80] : Buffer).length = Config.keyLen 1 1 ∧
    (∀ i, 1 ≤ i → i < 8 → bit [0x80] i = false) := by decide
theorem witness_PadBitsCarryNothing :
    1 * 1 ≤ 1 ∧ 7 < 8 * Config.keyLen 1 1 ∧ 1 ≤ 1 ∧ (∀ i, i < 1 * 1 → bit [0x80] i = bit [0xFF] i) := by decide
theorem witness_KeyIsABigEndianNumber : 95 < 96 ∧ k592.length = 12 ∧ (zeros 12).length = 12 ∧ zeros 12 < k592 := by decide
theorem witness_EncodeCommutesWithComplement : 8 ∣ 3 * 32 := by decide
theorem witness_NegativeCoordinateIsItsBitPattern :
    0 < 3 ∧ 31 < 32 ∧ -(2 ^ 32) ≤ 2 * (-(2 ^ 31) : Int) ∧ -(2 ^ 31) ≤ (-1 : Int) ∧ (-1 : Int) < 0 ∧
    (portWith { req 0x00030001 0 with x := [5, 9, 0xFFFFFFFF] }).requests =
      { req 0x00030001 0 with x := [5, 9, 0xFFFFFFFF] } :: [] ∧
    ([5, 9, 0xFFFFFFFF] : List Config.Lane)[2]? = some (BitVec.ofInt 32 (-1)) := by decide
theorem witness_MakeMaskSetsTheLeadingBits :
    (portWith (req 0x10 1)).requests = req 0x10 1 :: [] ∧ 1 ≤ (96#32).toInt ∧ (96#32).toInt ≤ 96 ∧
    (0#32).toInt < 1 ∧ 96 < (97#32).toInt := by decide
theorem witness_Masks : 1 ≤ 96 ∧ 96 ≤ 3 * 32 ∧ 1 ≤ 12 ∧ 8 * 12 ≤ 3 * 32 := by decide
theorem witness_ByteBoundaryMasks :
    (portWith { req 0x311 96 with a := k592, b := k592 }).requests = { req 0x311 96 with a := k592, b := k592 } :: [] ∧
    12 ≤ k592.length := by decide
/-- Both ends of the prefix range, and a true match whose candidate bit 11 is below n = 12 and bit 12 is not. -/
theorem witness_MatchDependsOnPrefixBits :
    (portWith { req 0x311 12 with a := zeros 12, b := k592 }).requests = { req 0x311 12 with a := zeros 12, b := k592 } :: [] ∧
    1 ≤ (1#32).toInt ∧ (96#32).toInt ≤ 96 ∧ 12 ≤ (zeros 12).length ∧ 12 ≤ k592.length ∧
    answerTo { req 0x311 12 with a := zeros 12, b := k592 } = some (okFlag true) ∧
    answerTo { req 0x311 12 with a := zeros 12, b := flipBit k592 11 } = some (okFlag false) ∧
    answerTo { req 0x311 12 with a := zeros 12, b := flipBit k592 12 } = some (okFlag true) := by decide +kernel
theorem witness_MatchConsistency :
    (12#32 : Word) = BitVec.ofNat 32 12 ∧ k592.length = 12 ∧ conjunction k592 (prefixMask 3 32 12) = zeros 12 := by
  decide +kernel
theorem witness_RenderShowsThePrefix :
    (portWith { req 0x112 1 with a := k592 }).requests = { req 0x112 1 with a := k592 } :: [] ∧ 1 ≤ (1#32).toInt ∧
    (96#32).toInt ≤ 96 ∧ k592.length = 12 := by decide
theorem witness_NotComplementsEachByte :
    (portWith { req 0x120 0 with a := [0x0F] }).requests = { req 0x120 0 with a := [0x0F] } :: [] ∧
    ([0x0F] : Buffer)[0]? = some 0x0F := by decide
theorem witness_AndOrCombineBitByBit :
    (portWith { req 0x321 0 with a := [1], b := [2] }).requests = { req 0x321 0 with a := [1], b := [2] } :: [] ∧
    ([1] : Buffer).length = ([2] : Buffer).length := by decide
theorem witness_SetBitForcesOneBit :
    (portWith { req 0x123 7 with a := [0] }).requests = { req 0x123 7 with a := [0] } :: [] ∧
    (7#32).toInt = ((7 : Nat) : Int) ∧ 7 < 8 * ([0] : Buffer).length := by decide
theorem witness_ConcatPlacesBuffersInOrder :
    (portWith { req 0x724 0 with a := [1], c := [2] }).requests = { req 0x724 0 with a := [1], c := [2] } :: [] := by decide
theorem witness_ComplementLaw :
    exec (.bufNot ⟨true, false, false, 0⟩) (portWith { req 0x120 0 with a := [0x0F] }) =
      .next { requests := [], responses := [okBuffer [0xF0]] } ∧
    (portWith { req 0x120 0 with a := [0xF0] }).requests = { req 0x120 0 with a := (okBuffer [0xF0]).r } :: [] := ⟨rfl, rfl⟩
theorem witness_AndOrIdentity :
    (portWith { req 0x321 0 with a := [5], b := ones 1 }).requests = { req 0x321 0 with a := [5], b := ones 1 } :: [] ∧
    (portWith { req 0x322 0 with a := [5], b := zeros 1 }).requests = { req 0x322 0 with a := [5], b := zeros 1 } :: [] := by
  decide
theorem witness_BitwiseIdentities :
    ([1] : Buffer).length = ([2] : Buffer).length ∧ 7 < 8 * ([1] : Buffer).length ∧ [1, 0].Perm (List.range 2) ∧
    2 ≤ 3 * 32 := by decide
theorem witness_AssembledRequestIsCanonical : assemble 12 [] (.bufNot (.literal [0x0F])) = .ok { req 0x120 0 with a := [0x0F] } := by
  rfl
theorem witness_HostKeepsTheResponse :
    assemble 12 [] (.makeMask 12) = .ok (req 0x00000010 12) ∧ (respond (req 0x00000010 12)).status = 0x00 := by
  decide +kernel
/-- The longest buffer of a unit with LMAX = 12, and one byte more. -/
theorem witness_ExpressibleLinesAssemble :
    (assemble 12 [] (.bufNot (.literal (zeros 12)))).toBool = true ∧
    assemble 12 [] (.bufNot (.literal (zeros 13))) = .error .bufferTooLong := by decide +kernel
/-- Program P4: `e1 <- MAKEMASK 0` fails, and `NOT e1.R` is no request. -/
theorem witness_FailedResultIsNotRead :
    List.lookup "e1".toList [("e1".toList, respond (req 0x00000010 0))] = some (err 0x03) ∧ (err 0x03).status ≠ 0x00 ∧
    assemble 12 [("e1".toList, err 0x03)] (.bufNot (.resultOf "e1".toList)) = .error .failedResult ∧
    assemble 12 [("m".toList, okBuffer [1])] (.bufNot (.resultOf "m".toList)) = .ok { req 0x120 0 with a := [1] } := by
  decide +kernel

end Sys2Proof.Tests
end

section
/-! Settles O17: a step answers at most one request, by `respond`, and every response of `respond` to a request of R12 is
lawful. The result lengths are bounded command by command in terms of the request alone; LMAX enters only at the end. -/

namespace Sys2Proof.Machine

variable {lmax : Nat} {f : CwFields} {q : Request}

/-! ## The result length of each command -/

/-- What an operand gives are the bytes of its slot, so their length is bounded by that of the request (R43). -/
theorem slotBytes_of_operand {slot : Slot} {b : Buffer} (h : operand f q slot = some b) : slotBytes q slot = b :=
  (operand_eq_some.1 h).2

theorem length_encodeResponse_r_le : (encodeResponse f q).r.length ≤ Config.KEYLEN := by
  unfold encodeResponse
  split
  · simp
  · simp [Config.KEYLEN]

theorem decodeResponse_r : (decodeResponse f q).r = [] := by
  unfold decodeResponse
  split
  · simp
  · split <;> simp

theorem length_makeMaskResponse_r_le : (makeMaskResponse q).r.length ≤ Config.KEYLEN := by
  unfold makeMaskResponse
  split
  · simp
  · simp [Config.KEYLEN]

theorem matchResponse_r : (matchResponse f q).r = [] := by
  unfold matchResponse
  split
  · split
    · simp
    · split <;> simp
  · simp

theorem length_renderResponse_r_le : (renderResponse f q).r.length ≤ 8 * Config.KEYLEN := by
  unfold renderResponse
  split
  · simp
  · split
    · simp
    · split
      · simp
      · simp [Config.KEYLEN]

theorem length_notResponse_r_le : (notResponse f q).r.length ≤ q.a.length := by
  unfold notResponse
  split
  · simp
  · next b hb =>
    obtain rfl := slotBytes_of_operand hb
    simp [slotBytes]

theorem length_andResponse_r_le : (andResponse f q).r.length ≤ q.a.length := by
  unfold andResponse
  split
  · next b1 b2 ha hb =>
    obtain rfl := slotBytes_of_operand ha
    split
    · simp
    · next hl => exact (length_conjunction (not_not.1 hl)).le
  · simp

theorem length_orResponse_r_le : (orResponse f q).r.length ≤ q.a.length := by
  unfold orResponse
  split
  · next b1 b2 ha hb =>
    obtain rfl := slotBytes_of_operand ha
    split
    · simp
    · next hl => exact (length_disjunction (not_not.1 hl)).le
  · simp

theorem length_setBitResponse_r_le : (setBitResponse f q).r.length ≤ q.a.length := by
  unfold setBitResponse
  split
  · simp
  · next b hb =>
    obtain rfl := slotBytes_of_operand hb
    split
    · simp
    · simp [slotBytes]

theorem length_concatResponse_r_le :
    (concatResponse f q).r.length ≤ q.a.length + q.b.length + q.c.length := by
  unfold concatResponse
  split
  · next b1 b2 b3 ha hb hc =>
    obtain rfl := slotBytes_of_operand ha
    obtain rfl := slotBytes_of_operand hb
    obtain rfl := slotBytes_of_operand hc
    exact (length_join3 _ _ _).le
  · simp

/-! ## Results fit the result buffer -/

theorem three_mul_le_rmax (lmax : Nat) : 3 * lmax ≤ Config.rmax lmax := le_max_left _ _

theorem eight_mul_keyLen_le_rmax (lmax : Nat) : 8 * Config.KEYLEN ≤ Config.rmax lmax := le_max_right _ _

/-- 00_scope.md R7: CONCAT sets the bound 3·LMAX and RENDER the bound 8·KEYLEN; no other result is longer than both. -/
theorem length_responseOf_r_le_rmax (i : Instr) (hq : Request.WellFormed lmax q) :
    (responseOf i q).r.length ≤ Config.rmax lmax := by
  obtain ⟨ha, hb, hc, -⟩ := hq
  have hconcat := three_mul_le_rmax lmax
  have hrender := eight_mul_keyLen_le_rmax lmax
  cases i with
  | encode f => exact length_encodeResponse_r_le.trans (by omega)
  | decode f => simp [responseOf, decodeResponse_r]
  | makeMask f => exact length_makeMaskResponse_r_le.trans (by omega)
  | matchPrefix f => simp [responseOf, matchResponse_r]
  | render f => exact length_renderResponse_r_le.trans hrender
  | bufNot f => exact length_notResponse_r_le.trans (by omega)
  | bufAnd f => exact length_andResponse_r_le.trans (by omega)
  | bufOr f => exact length_orResponse_r_le.trans (by omega)
  | setBit f => exact length_setBitResponse_r_le.trans (by omega)
  | concat f => exact length_concatResponse_r_le.trans (by omega)

/-! ## Responses are lawful -/

theorem statusCode_mem (e : Condition) : statusCode e ∈ statusCodes := by
  cases e <;> decide

/-- A success is lawful as soon as its result fits. -/
theorem lawfulResponse_of_statusOk {rsp : Response} (hs : rsp.status = statusOk)
    (hr : rsp.r.length ≤ Config.rmax lmax) : LawfulResponse lmax rsp :=
  ⟨by rw [hs]; decide, fun hne => absurd hs hne, hr⟩

/-- An error response carries its STATUS alone (60_exceptions.md R84), so it is lawful for every LMAX. -/
theorem lawfulResponse_raise (lmax : Nat) (e : Condition) : LawfulResponse lmax (raise e) :=
  ⟨statusCode_mem e, fun _ => ⟨raise_r e, raise_y e, raise_flag e⟩, by simp⟩

theorem lawfulResponse_responseOf (i : Instr) (hq : Request.WellFormed lmax q) :
    LawfulResponse lmax (responseOf i q) := by
  have hr := length_responseOf_r_le_rmax i hq
  obtain ⟨b, h⟩ | ⟨y, h⟩ | ⟨v, h⟩ | ⟨e, -, h⟩ := responseOf_cases i q
  · exact lawfulResponse_of_statusOk (by rw [h, okBuffer_status]) hr
  · exact lawfulResponse_of_statusOk (by rw [h, okLanes_status]) hr
  · exact lawfulResponse_of_statusOk (by rw [h, okFlag_status]) hr
  · exact h ▸ lawfulResponse_raise lmax e

theorem lawfulResponse_respond (hq : Request.WellFormed lmax q) : LawfulResponse lmax (respond q) := by
  unfold respond
  split
  · exact lawfulResponse_responseOf _ hq
  · exact lawfulResponse_raise _ _

/-! ## The ports stay lawful -/

/-- Answering takes a request away and adds one response, so only that response has to be lawful. -/
theorem lawfulPorts_answer {s : State} {rsp : Response} (hs : LawfulPorts lmax s) (hr : LawfulResponse lmax rsp) :
    LawfulPorts lmax (s.answer rsp) := by
  obtain ⟨hreq, hrsp⟩ := hs
  refine ⟨fun q hq => hreq q (List.mem_of_mem_tail hq), fun r hmem => ?_⟩
  rcases List.mem_append.1 hmem with hold | hnew
  · exact hrsp r hold
  · exact List.mem_singleton.1 hnew ▸ hr

theorem lawfulPorts_step {s t : State} (hs : LawfulPorts lmax s) (h : step s = .next t) : LawfulPorts lmax t := by
  obtain ⟨-, hidle⟩ | ⟨q, rest, hport, hanswer⟩ := step_cases s
  · obtain rfl : s = t := by simpa [hidle] using h
    exact hs
  · obtain rfl : s.answer (respond q) = t := by simpa [hanswer] using h
    exact lawfulPorts_answer hs (lawfulResponse_respond (hs.1 q (by simp [hport])))

/-- Settles O17: it holds, and R7's lower bound on LMAX is not needed, because `rmax` is a maximum. -/
theorem lawfulPortsAreKept : Obligations.LawfulPortsAreKept :=
  fun _ _ _ _ hs h => lawfulPorts_step hs h

end Sys2Proof.Machine
end

section
/-! Settles O6, O7 and O9: a step and a command are one transaction on the oldest request, here in the form that
writes the next state out. -/

namespace Sys2Proof.Machine

variable {s : State} {q : Request} {rest : List Request}

/-! ## The answered state written out -/

theorem State.answer_of_requests (h : s.requests = q :: rest) (rsp : Response) :
    s.answer rsp = { requests := rest, responses := s.responses ++ [rsp] } := by
  simp [State.answer, h]

theorem exec_of_requests (i : Instr) (h : s.requests = q :: rest) :
    exec i s = .next { requests := rest, responses := s.responses ++ [responseOf i q] } := by
  rw [exec_of_request i h, State.answer_of_requests h]

theorem step_of_requests (h : s.requests = q :: rest) :
    step s = .next { requests := rest, responses := s.responses ++ [respond q] } := by
  rw [step_of_request h, State.answer_of_requests h]

/-- A command called where no request stands has no operands (log 3). -/
theorem exec_of_idle (i : Instr) (h : s.requests = []) : exec i s = .fault .noRequest := by
  simp [exec_eq_transact, transact, currentRequest, h]

/-! ## The response to a request, by its command word -/

theorem respond_of_decode_ok {i : Instr} (h : decode q.cw = .ok i) : respond q = responseOf i q := by
  simp only [respond, h]

theorem respond_of_decode_error {e : Reject} (h : decode q.cw = .error e) : respond q = raise .illegalCommand := by
  simp only [respond, h]

/-! ## The statements -/

/-- Settles O6: the step and the command both answer with `responseOf i q`. -/
theorem stepRunsTheDecodedCommand : Obligations.StepRunsTheDecodedCommand := by
  refine ⟨fun s q rest i hport hdec => ?_, fun s q rest e hport hdec => ?_, fun s => step_of_idle⟩
  · rw [step_of_requests hport, exec_of_requests i hport, respond_of_decode_ok hdec]
  · rw [step_of_requests hport, respond_of_decode_error hdec]

/-- Settles O7: a step answers with `respond q`, a function of the request alone. -/
theorem responseIsAFunctionOfTheRequest : Obligations.ResponseIsAFunctionOfTheRequest :=
  fun _ _ _ _ _ hport₁ hport₂ => ⟨step_of_requests hport₁, step_of_requests hport₂⟩

/-- Settles O9, by whether a request stands at the port. -/
theorem everyCommandIsOneTransaction : Obligations.EveryCommandIsOneTransaction := by
  intro i s
  cases hport : s.requests with
  | nil => simp [exec_of_idle i hport]
  | cons q rest => simp [exec_of_requests i hport, eq_comm]

end Sys2Proof.Machine
end

section
/-! Settles O15: each command either raises a condition or answers with its own result, and a condition's STATUS is
never 0x00, so a success is the command's own result. -/

namespace Sys2Proof.Machine

variable {f : CwFields} {q : Request}

/-! ## A command raises a condition or answers with its own result -/

theorem encodeResponse_cases :
    (∃ e, encodeResponse f q = raise e) ∨
      encodeResponse f q = okBuffer (interleave Config.K Config.W (lane q)) := by
  unfold encodeResponse
  split
  · exact .inl ⟨_, rfl⟩
  · exact .inr rfl

theorem decodeResponse_cases :
    (∃ e, decodeResponse f q = raise e) ∨
      decodeResponse f q = okLanes (deinterleave Config.K Config.W q.a) := by
  unfold decodeResponse
  split
  · exact .inl ⟨_, rfl⟩
  · next key hkey =>
    obtain rfl := slotBytes_of_operand hkey
    split
    · exact .inl ⟨_, rfl⟩
    · exact .inr rfl

theorem makeMaskResponse_cases :
    (∃ e, makeMaskResponse q = raise e) ∨
      ∃ n, makeMaskResponse q = okBuffer (prefixMask Config.K Config.W n) := by
  unfold makeMaskResponse
  split
  · exact .inl ⟨_, rfl⟩
  · exact .inr ⟨_, rfl⟩

theorem matchResponse_cases :
    (∃ e, matchResponse f q = raise e) ∨
      ∃ n, matchResponse f q = okFlag (matchFlag Config.K Config.W q.a n q.b) := by
  unfold matchResponse
  split
  · next pre cand hpre hcand =>
    obtain rfl := slotBytes_of_operand hpre
    obtain rfl := slotBytes_of_operand hcand
    split
    · exact .inl ⟨_, rfl⟩
    · split
      · exact .inl ⟨_, rfl⟩
      · exact .inr ⟨_, rfl⟩
  · exact .inl ⟨_, rfl⟩

theorem renderResponse_cases :
    (∃ e, renderResponse f q = raise e) ∨
      ∃ n, renderResponse f q = okBuffer (renderKey Config.K Config.W q.a n) := by
  unfold renderResponse
  split
  · exact .inl ⟨_, rfl⟩
  · next key hkey =>
    obtain rfl := slotBytes_of_operand hkey
    split
    · exact .inl ⟨_, rfl⟩
    · split
      · exact .inl ⟨_, rfl⟩
      · exact .inr ⟨_, rfl⟩

theorem notResponse_cases :
    (∃ e, notResponse f q = raise e) ∨ notResponse f q = okBuffer (complement q.a) := by
  unfold notResponse
  split
  · exact .inl ⟨_, rfl⟩
  · next b hb =>
    obtain rfl := slotBytes_of_operand hb
    exact .inr rfl

theorem andResponse_cases :
    (∃ e, andResponse f q = raise e) ∨
      q.a.length = q.b.length ∧ andResponse f q = okBuffer (conjunction q.a q.b) := by
  unfold andResponse
  split
  · next b1 b2 hb1 hb2 =>
    obtain rfl := slotBytes_of_operand hb1
    obtain rfl := slotBytes_of_operand hb2
    split
    · exact .inl ⟨_, rfl⟩
    · next hlen => exact .inr ⟨not_not.1 hlen, rfl⟩
  · exact .inl ⟨_, rfl⟩

theorem orResponse_cases :
    (∃ e, orResponse f q = raise e) ∨
      q.a.length = q.b.length ∧ orResponse f q = okBuffer (disjunction q.a q.b) := by
  unfold orResponse
  split
  · next b1 b2 hb1 hb2 =>
    obtain rfl := slotBytes_of_operand hb1
    obtain rfl := slotBytes_of_operand hb2
    split
    · exact .inl ⟨_, rfl⟩
    · next hlen => exact .inr ⟨not_not.1 hlen, rfl⟩
  · exact .inl ⟨_, rfl⟩

theorem setBitResponse_cases :
    (∃ e, setBitResponse f q = raise e) ∨ ∃ pos, setBitResponse f q = okBuffer (withBit1 q.a pos) := by
  unfold setBitResponse
  split
  · exact .inl ⟨_, rfl⟩
  · next b hb =>
    obtain rfl := slotBytes_of_operand hb
    split
    · exact .inl ⟨_, rfl⟩
    · exact .inr ⟨_, rfl⟩

theorem concatResponse_cases :
    (∃ e, concatResponse f q = raise e) ∨ concatResponse f q = okBuffer (join3 q.a q.b q.c) := by
  unfold concatResponse
  split
  · next b1 b2 b3 hb1 hb2 hb3 =>
    obtain rfl := slotBytes_of_operand hb1
    obtain rfl := slotBytes_of_operand hb2
    obtain rfl := slotBytes_of_operand hb3
    exact .inr rfl
  · exact .inl ⟨_, rfl⟩

/-! ## A success is the command's own result -/

theorem statusCode_ne_statusOk (e : Condition) : statusCode e ≠ statusOk := by
  cases e <;> decide

/-- A response without an error is no condition raised (60_exceptions.md R84). -/
theorem right_of_raise_or {rsp : Response} {p : Prop} (h : (∃ e, rsp = raise e) ∨ p) (hok : rsp.status = statusOk) :
    p := by
  obtain ⟨e, rfl⟩ | hp := h
  · exact absurd hok (statusCode_ne_statusOk e)
  · exact hp

/-- A result buffer leaves Y and FLAG zero (10_state.md R13). -/
theorem fields_of_eq_okBuffer {rsp : Response} {b : Buffer} {len : Nat} {p₁ p₂ : Prop} (h : rsp = okBuffer b)
    (hlen : b.length = len) :
    (p₁ → rsp.y = #v[0, 0, 0]) ∧ (p₂ → rsp.flag = false) ∧ rsp.r.length = len :=
  h ▸ ⟨fun _ => rfl, fun _ => rfl, hlen⟩

/-- Settles O15, command by command, from the command's own result. -/
theorem fieldsWrittenOnSuccess : Obligations.FieldsWrittenOnSuccess := by
  intro i s q rest hport
  refine ⟨responseOf i q, exec_of_requests i hport, fun hok => ?_⟩
  cases i with
  | encode f => exact fields_of_eq_okBuffer (right_of_raise_or encodeResponse_cases hok) (length_interleave _ _ _)
  | decode f =>
    have h := right_of_raise_or decodeResponse_cases hok
    exact ⟨fun hne => absurd rfl (hne f), fun _ => congrArg Response.flag h, congrArg List.length decodeResponse_r⟩
  | makeMask f =>
    obtain ⟨n, h⟩ := right_of_raise_or makeMaskResponse_cases hok
    exact fields_of_eq_okBuffer h (length_prefixMask _ _ _)
  | matchPrefix f =>
    obtain ⟨n, h⟩ := right_of_raise_or matchResponse_cases hok
    exact ⟨fun _ => congrArg Response.y h, fun hne => absurd rfl (hne f), congrArg List.length matchResponse_r⟩
  | render f =>
    obtain ⟨n, h⟩ := right_of_raise_or renderResponse_cases hok
    exact fields_of_eq_okBuffer h (length_renderKey _ _ _ _)
  | bufNot f => exact fields_of_eq_okBuffer (right_of_raise_or notResponse_cases hok) (length_complement _)
  | bufAnd f =>
    obtain ⟨hlen, h⟩ := right_of_raise_or andResponse_cases hok
    exact fields_of_eq_okBuffer h (length_conjunction hlen)
  | bufOr f =>
    obtain ⟨hlen, h⟩ := right_of_raise_or orResponse_cases hok
    exact fields_of_eq_okBuffer h (length_disjunction hlen)
  | setBit f =>
    obtain ⟨pos, h⟩ := right_of_raise_or setBitResponse_cases hok
    exact fields_of_eq_okBuffer h (length_withBit1 _ _)
  | concat f => exact fields_of_eq_okBuffer (right_of_raise_or concatResponse_cases hok) (length_join3 _ _ _)

end Sys2Proof.Machine
end

section
/-! Settles O18 and O43: the state after reset, and a command line run on it. -/

namespace Sys2Proof.Machine

/-- Settles O18: no request and no response stands at the ports, so every one that does is lawful. -/
theorem resetPortsAreEmptyAndLawful : Obligations.ResetPortsAreEmptyAndLawful :=
  ⟨rfl, rfl, fun _ => ⟨List.forall_mem_nil _, List.forall_mem_nil _⟩⟩

/-- The one request issued to the idle machine is answered at once. -/
theorem step_reset_issue (q : Request) :
    step (State.reset.issue q) = .next { requests := [], responses := [respond q] } :=
  step_of_requests rfl

/-- Settles O43: the step answers the request alone, and taking that response leaves the machine as after reset. -/
theorem hostKeepsTheResponse : Obligations.HostKeepsTheResponse := by
  intro lmax vars n c q hq
  have htake : State.takeResponse { requests := [], responses := [respond q] } = some (respond q, State.reset) := rfl
  simp only [runLine, hq, step_reset_issue, htake]

end Sys2Proof.Machine
end

section
/-! Settles O42: what the assembler makes of each command line is `canonicalRequest` of the resolved arguments, and
such a request is canonical as soon as its operands fit and those the command does not read are empty. -/

namespace Sys2Proof

/-- 30_encoding.md R37, R38: the encoding of a command that fits the command word decodes to it. -/
theorem decode_encode {i : Instr} (h : i.WellFormed) : decode (encode i) = .ok i :=
  decode_eq_ok.2 ⟨cwRsv0_encodeFields _ _, cwRsv1_encodeFields _ _, (cwOp_encodeFields _ _).symm,
    (cwFields_encodeFields _ h).symm⟩

end Sys2Proof

namespace Sys2Proof.Machine

/-! ## Lanes -/

/-- The coordinate arguments become the lanes that hold them, one each in their order. -/
theorem resolveLanes_ok {vars : HostVars} {xs : List LaneArg} {vs : List Config.Lane}
    (h : resolveLanes vars xs = .ok vs) : List.Forall₂ (HoldsLane vars) xs vs := by
  induction xs generalizing vs with
  | nil =>
    cases h
    exact .nil
  | cons x xs ih =>
    simp only [resolveLanes] at h
    split at h
    · next v vs' hx hxs =>
      cases h
      exact .cons (resolveLane_eq_ok.1 hx) (ih hxs)
    · cases h
    · cases h

theorem exists_getElem?_of_forall₂ {α β : Type} {r : α → β → Prop} {xs : List α} {ys : List β}
    (h : List.Forall₂ r xs ys) {j : Nat} {x : α} (hx : xs[j]? = some x) : ∃ y, ys[j]? = some y ∧ r x y := by
  obtain ⟨hj, rfl⟩ := List.getElem?_eq_some_iff.1 hx
  have hj' : j < ys.length := h.length_eq ▸ hj
  exact ⟨ys[j], List.getElem?_eq_getElem hj', h.get hj hj'⟩

/-! ## Canonical requests -/

/-- The fields `canonicalRequest` gives the command word. -/
def operandFields (a b c : Option Buffer) (x : List Config.Lane) : CwFields :=
  { pa := a.isSome, pb := b.isSome, pc := c.isSome, nc := x.length }

theorem canonicalRequest_cw (mk : CwFields → Instr) (a b c : Option Buffer) (arg : Word) (x : List Config.Lane) :
    (canonicalRequest mk a b c arg x).cw = encode (mk (operandFields a b c x)) := rfl

/-- Every operand outside a command's read set is empty (30_encoding.md R45). -/
def UnreadIsEmpty (rd : ReadSet) (a b c : Option Buffer) (arg : Word) (x : List Config.Lane) : Prop :=
  (rd.a = false → a = none) ∧ (rd.b = false → b = none) ∧ (rd.c = false → c = none) ∧
  (rd.arg = false → arg = 0) ∧ (rd.lanes = false → x = [])

theorem getD_of_isSome_false {o : Option Buffer} (h : o.isSome = false) : o.getD [] = [] := by
  cases o with
  | none => rfl
  | some b => cases h

/-- An absent slot is what `null` becomes, so the slots a line has no argument for are treated as `null`. -/
theorem resolveBuffer_null {lmax : Nat} {vars : HostVars} : resolveBuffer lmax vars .null = .ok none := rfl

/-- The part of O42 that is one argument for all commands: `op` is the opcode of the line's command, and `p` says what
the request holds of the line's arguments, given that each slot holds its own. -/
theorem exists_command_of_canonicalRequest {lmax : Nat} {vars : HostVars} {mk : CwFields → Instr}
    {argA argB argC : BufferArg} {a b c : Option Buffer} {arg : Word} {x : List Config.Lane} {op : BitVec 8}
    {p : Instr → Prop} (hmk : ∀ f, (mk f).fields = f) (ha : resolveBuffer lmax vars argA = .ok a)
    (hb : resolveBuffer lmax vars argB = .ok b) (hc : resolveBuffer lmax vars argC = .ok c)
    (hx : x.length ≤ Config.NCMAX) (hop : opcode (mk (operandFields a b c x)) = op)
    (hp : HoldsBuffer vars argA a.isSome (a.getD []) → HoldsBuffer vars argB b.isSome (b.getD []) →
      HoldsBuffer vars argC c.isSome (c.getD []) → p (mk (operandFields a b c x)))
    (hunread : UnreadIsEmpty (readSet (mk (operandFields a b c x))) a b c arg x := by
      simp [UnreadIsEmpty, readSet]) :
    ∃ i, decode (canonicalRequest mk a b c arg x).cw = .ok i ∧
      Request.WellFormed lmax (canonicalRequest mk a b c arg x) ∧ opcode i = op ∧
      (canonicalRequest mk a b c arg x).x.length = i.fields.nc ∧
      (i.fields.pa = false → (canonicalRequest mk a b c arg x).a = []) ∧
      (i.fields.pb = false → (canonicalRequest mk a b c arg x).b = []) ∧
      (i.fields.pc = false → (canonicalRequest mk a b c arg x).c = []) ∧
      ((readSet i).a = false → i.fields.pa = false) ∧ ((readSet i).b = false → i.fields.pb = false) ∧
      ((readSet i).c = false → i.fields.pc = false) ∧
      ((readSet i).arg = false → (canonicalRequest mk a b c arg x).arg = 0) ∧
      ((readSet i).lanes = false → i.fields.nc = 0) ∧ p i := by
  have hfields := hmk (operandFields a b c x)
  have hwf : (mk (operandFields a b c x)).WellFormed := by rw [Instr.WellFormed, hfields]; exact hx
  have hlanes : x.length = (cwFields (encode (mk (operandFields a b c x)))).nc := by
    rw [encode, cwFields_encodeFields _ hwf, hfields]; rfl
  obtain ⟨holdsA, fitsA⟩ := resolveBuffer_ok ha
  obtain ⟨holdsB, fitsB⟩ := resolveBuffer_ok hb
  obtain ⟨holdsC, fitsC⟩ := resolveBuffer_ok hc
  obtain ⟨hra, hrb, hrc, hrarg, hrlanes⟩ := hunread
  have hdecode : decode (canonicalRequest mk a b c arg x).cw = .ok (mk (operandFields a b c x)) := by
    rw [canonicalRequest_cw, decode_encode hwf]
  refine ⟨mk (operandFields a b c x), hdecode, ⟨fitsA, fitsB, fitsC, hlanes⟩, hop, ?_⟩
  rw [hfields]
  exact ⟨rfl, getD_of_isSome_false, getD_of_isSome_false, getD_of_isSome_false,
    fun h => by simp [operandFields, hra h], fun h => by simp [operandFields, hrb h],
    fun h => by simp [operandFields, hrc h], hrarg, fun h => by simp [operandFields, hrlanes h],
    hp holdsA holdsB holdsC⟩

/-- Settles O42, by the line's command: its arguments are resolved, and the slots, ARG and lanes that come of them hold
them. -/
theorem assembledRequestIsCanonical : Obligations.AssembledRequestIsCanonical := by
  intro lmax vars cmd q h
  cases cmd with
  | encode xs =>
    simp only [assemble] at h
    split at h
    · cases h
    · next hlen =>
      obtain ⟨vs, hvs, ⟨⟩⟩ := bind_eq_ok.1 h
      have hholds := resolveLanes_ok hvs
      exact exists_command_of_canonicalRequest (vars := vars) (fun _ => rfl) resolveBuffer_null resolveBuffer_null
        resolveBuffer_null (hholds.length_eq ▸ Nat.le_of_not_lt hlen) rfl
        fun _ _ _ => ⟨hholds.length_eq.symm, fun j x => exists_getElem?_of_forall₂ hholds⟩
  | decode a =>
    obtain ⟨sa, ha, ⟨⟩⟩ := bind_eq_ok.1 h
    exact exists_command_of_canonicalRequest (fun _ => rfl) ha resolveBuffer_null resolveBuffer_null
      (Nat.zero_le _) rfl fun holdsA _ _ => holdsA
  | makeMask n =>
    obtain ⟨w, hw, ⟨⟩⟩ := bind_eq_ok.1 h
    exact exists_command_of_canonicalRequest (vars := vars) (fun _ => rfl) resolveBuffer_null resolveBuffer_null
      resolveBuffer_null (Nat.zero_le _) rfl fun _ _ _ => (resolveScalar_ok hw).2
  | matchPrefix a n b =>
    simp only [assemble, bind_eq_ok] at h
    obtain ⟨sa, ha, w, hw, sb, hb, ⟨⟩⟩ := h
    exact exists_command_of_canonicalRequest (fun _ => rfl) ha hb resolveBuffer_null
      (Nat.zero_le _) rfl fun holdsA holdsB _ => ⟨holdsA, (resolveScalar_ok hw).2, holdsB⟩
  | render a n =>
    simp only [assemble, bind_eq_ok] at h
    obtain ⟨sa, ha, w, hw, ⟨⟩⟩ := h
    exact exists_command_of_canonicalRequest (fun _ => rfl) ha resolveBuffer_null resolveBuffer_null
      (Nat.zero_le _) rfl fun holdsA _ _ => ⟨holdsA, (resolveScalar_ok hw).2⟩
  | bufNot a =>
    obtain ⟨sa, ha, ⟨⟩⟩ := bind_eq_ok.1 h
    exact exists_command_of_canonicalRequest (fun _ => rfl) ha resolveBuffer_null resolveBuffer_null
      (Nat.zero_le _) rfl fun holdsA _ _ => holdsA
  | bufAnd a b =>
    simp only [assemble, bind_eq_ok] at h
    obtain ⟨sa, ha, sb, hb, ⟨⟩⟩ := h
    exact exists_command_of_canonicalRequest (fun _ => rfl) ha hb resolveBuffer_null
      (Nat.zero_le _) rfl fun holdsA holdsB _ => ⟨holdsA, holdsB⟩
  | bufOr a b =>
    simp only [assemble, bind_eq_ok] at h
    obtain ⟨sa, ha, sb, hb, ⟨⟩⟩ := h
    exact exists_command_of_canonicalRequest (fun _ => rfl) ha hb resolveBuffer_null
      (Nat.zero_le _) rfl fun holdsA holdsB _ => ⟨holdsA, holdsB⟩
  | setBit a n =>
    simp only [assemble, bind_eq_ok] at h
    obtain ⟨sa, ha, w, hw, ⟨⟩⟩ := h
    exact exists_command_of_canonicalRequest (fun _ => rfl) ha resolveBuffer_null resolveBuffer_null
      (Nat.zero_le _) rfl fun holdsA _ _ => ⟨holdsA, (resolveScalar_ok hw).2⟩
  | concat a b c =>
    simp only [assemble, bind_eq_ok] at h
    obtain ⟨sa, ha, sb, hb, sc, hc, ⟨⟩⟩ := h
    exact exists_command_of_canonicalRequest (fun _ => rfl) ha hb hc
      (Nat.zero_le _) rfl fun holdsA holdsB holdsC => ⟨holdsA, holdsB, holdsC⟩

end Sys2Proof.Machine
end

section
/-! Settles O8, O19 and O25: the order of the responses, the numbering of bits from the most significant, and a key as
one big-endian number. -/

namespace Sys2Proof.Machine

/-! ## The order of the responses -/

/-- Settles O8, by induction on the number of steps: a step answers the oldest request or finds the port idle. -/
theorem responsesComeInRequestOrder : Obligations.ResponsesComeInRequestOrder := by
  intro n
  induction n with
  | zero =>
    intro s
    simp only [List.drop_zero, List.take_zero, List.map_nil, List.append_nil]
    rfl
  | succ n ih =>
    intro s
    obtain ⟨hport, hidle⟩ | ⟨q, rest, hport, hanswer⟩ := step_cases s
    · simp [run_of_step hidle, ih, hport]
    · simp [run_of_step hanswer, ih, hport]

/-! ## Bits by weight -/

/-- MSB-first position `p` is the bit of weight 2^(w−1−p) (20_memory.md R27). -/
theorem getMsbD_eq_testBit {w p : Nat} (v : BitVec w) (hp : p < w) : v.getMsbD p = v.toNat.testBit (w - 1 - p) := by
  rw [BitVec.getMsbD_eq_getLsbD, decide_eq_true hp, Bool.true_and, BitVec.testBit_toNat]

/-- Settles O19: both numberings are `getMsbD`, which reads a bit by its weight. -/
theorem bitNumbering : Obligations.BitNumbering := by
  refine ⟨fun b i h => ?_, fun w v p hp => ?_⟩
  · rw [bit_eq_getMsbD (by omega), getMsbD_eq_testBit _ (Nat.mod_lt _ (by decide)), Nat.testBit_eq_decide_div_mod_eq]
  · rw [cbit, getMsbD_eq_testBit v hp, Nat.testBit_eq_decide_div_mod_eq]

/-! ## A buffer as a big-endian number -/

/-- What the bytes before `b` contribute is shifted up by the bits of `b`. -/
theorem foldl_bytes_eq (b : Buffer) (n : Nat) :
    b.foldl (fun n v => 256 * n + v.toNat) n = 2 ^ (8 * b.length) * n + bufferNumber b := by
  induction b generalizing n with
  | nil => simp [bufferNumber]
  | cons v b ih =>
    rw [bufferNumber, List.foldl_cons, List.foldl_cons, ih, ih, List.length_cons, Nat.mul_succ, Nat.pow_add]
    ring

/-- Byte 0 is the most significant (20_memory.md R28). -/
theorem bufferNumber_cons (v : Byte) (b : Buffer) :
    bufferNumber (v :: b) = 2 ^ (8 * b.length) * v.toNat + bufferNumber b := by
  simpa [bufferNumber] using foldl_bytes_eq b v.toNat

theorem bufferNumber_lt (b : Buffer) : bufferNumber b < 2 ^ (8 * b.length) := by
  induction b with
  | nil => simp [bufferNumber]
  | cons v b ih =>
    rw [bufferNumber_cons, List.length_cons, Nat.mul_succ, Nat.pow_add]
    calc 2 ^ (8 * b.length) * v.toNat + bufferNumber b
        < 2 ^ (8 * b.length) * (v.toNat + 1) := by rw [Nat.mul_succ]; omega
      _ ≤ 2 ^ (8 * b.length) * 2 ^ 8 := Nat.mul_le_mul_left _ v.isLt

/-- The bit of the number at weight 2^j, counted from the last bit of the buffer, is that bit of the buffer. -/
theorem testBit_bufferNumber {b : Buffer} {i : Nat} (h : i < 8 * b.length) :
    (bufferNumber b).testBit (8 * b.length - 1 - i) = bit b i := by
  induction b generalizing i with
  | nil => simp at h
  | cons v b ih =>
    rw [bufferNumber_cons, Nat.testBit_two_pow_mul_add _ (bufferNumber_lt b), List.length_cons]
    rw [List.length_cons] at h
    by_cases hi : i < 8
    · rw [if_neg (by omega), bit_eq_getMsbD (by simp; omega), getMsbD_eq_testBit _ (by omega)]
      have h0 : i / 8 = 0 := by omega
      simp only [h0, List.getElem_cons_zero]
      congr 1
      omega
    · obtain ⟨j, rfl⟩ := Nat.exists_eq_add_of_le' (Nat.le_of_not_lt hi)
      rw [if_pos (by omega), show 8 * (b.length + 1) - 1 - (j + 8) = 8 * b.length - 1 - j by omega, ih (by omega)]
      simp [bit]

/-- Numbers written as a high part and a low part below the radix `n` compare by the high part first. -/
theorem mul_add_lt_mul_add_iff {n x y : Nat} (u v : Nat) (hx : x < n) (hy : y < n) :
    n * u + x < n * v + y ↔ u < v ∨ u = v ∧ x < y := by
  obtain h | rfl | h := lt_trichotomy u v
  · have := Nat.mul_le_mul_left n h
    rw [Nat.mul_succ] at this
    simp only [h, true_or, iff_true]
    omega
  · simp
  · have := Nat.mul_le_mul_left n h
    rw [Nat.mul_succ] at this
    simp only [h.not_gt, h.ne', false_and, or_false, iff_false]
    omega

/-- Byte-wise comparison of buffers of one length is comparison of their numbers (20_memory.md R28). -/
theorem lt_iff_bufferNumber_lt {a b : Buffer} (h : a.length = b.length) :
    a < b ↔ bufferNumber a < bufferNumber b := by
  induction a generalizing b with
  | nil =>
    obtain rfl := List.length_eq_zero_iff.1 h.symm
    simp
  | cons u a ih =>
    cases b with
    | nil => simp at h
    | cons v b =>
      have hl : a.length = b.length := by simpa using h
      rw [List.cons_lt_cons_iff, ih hl, bufferNumber_cons, bufferNumber_cons, hl,
        mul_add_lt_mul_add_iff _ _ (hl ▸ bufferNumber_lt a) (bufferNumber_lt b), BitVec.lt_def, BitVec.toNat_inj]

/-- Settles O25: the bits of a key are known (R50), and those of its number are those of the key. -/
theorem keyIsABigEndianNumber : Obligations.KeyIsABigEndianNumber := by
  refine ⟨fun x i hi => ?_, fun a b ha hb => lt_iff_bufferNumber_lt (ha.trans hb.symm)⟩
  have hlen : (interleave 3 32 x).length = 12 := length_interleave 3 32 x
  have hbit : bit (interleave 3 32 x) i = (x (i % 3)).getMsbD (i / 3) := by
    rw [bit_interleave, decide_eq_true hi, Bool.true_and]
  have hnumber := testBit_bufferNumber (b := interleave 3 32 x) (i := i) (by omega)
  rw [hlen, hbit] at hnumber
  exact ⟨hlen, hbit, hnumber⟩

end Sys2Proof.Machine
end

section
/-! Settles O1 to O5: which command words decode, and to what. A word whose reserved bits are zero is the encoding of its
opcode and fields (`encodeFields_cwFields`): that gives O3, and the mask test of R38. -/

namespace Sys2Proof

variable {cw : Word}

/-! ## The round trip -/

/-- Settles O2, by the field lemmas of an encoded word: reserved bits zero, and the opcode and fields as encoded. -/
theorem decodeOfEncodeIsTheCommand : Obligations.DecodeOfEncodeIsTheCommand :=
  fun _ => decode_encode

/-- Settles O3: the decoder accepts only zero reserved bits, and such a word is determined by its opcode and fields. -/
theorem decodedWordIsTheEncoding : Obligations.DecodedWordIsTheEncoding := by
  intro cw i h
  obtain ⟨hrsv0, hrsv1, hop, hfields⟩ := decode_eq_ok.1 h
  refine ⟨?_, ?_⟩
  · rw [Instr.WellFormed, hfields]
    exact cwFields_wellFormed cw
  · rw [encode, hop, hfields, encodeFields_cwFields hrsv0 hrsv1]

/-- Settles O1: the table is closed, and each of its words is decoded by evaluation. -/
theorem canonicalWordsDecode : Obligations.CanonicalWordsDecode := by
  unfold Obligations.CanonicalWordsDecode
  decide

/-! ## The ten opcodes -/

/-- The assigned opcodes (30_encoding.md R38). -/
def opcodes : List (BitVec 8) := [0x01, 0x02, 0x10, 0x11, 0x12, 0x20, 0x21, 0x22, 0x23, 0x24]

/-- Every command has an assigned opcode, and with any fields every assigned opcode has its command. -/
theorem mem_opcodes (op : BitVec 8) (f : CwFields) : op ∈ opcodes ↔ ∃ i, opcode i = op ∧ i.fields = f := by
  refine ⟨fun h => ?_, ?_⟩
  · have hall : ∀ o ∈ opcodes, ∃ i, decodeOp o f = some i := by simp [opcodes, decodeOp]
    obtain ⟨i, hi⟩ := hall op h
    exact ⟨i, decodeOp_eq_some.1 hi⟩
  · rintro ⟨i, rfl, -⟩
    cases i <;> simp [opcode, opcodes]

/-- A word decodes to some command exactly when its opcode is assigned and its reserved bits are zero
(30_encoding.md R47). -/
theorem exists_decode_eq_ok :
    (∃ i, decode cw = .ok i) ↔ cwOp cw ∈ opcodes ∧ cwRsv0 cw = 0#5 ∧ cwRsv1 cw = 0#8 := by
  simp only [decode_eq_ok, exists_and_left, mem_opcodes _ (cwFields cw)]
  tauto

theorem exists_decode_eq_error : (∃ e, decode cw = .error e) ↔ ¬ ∃ i, decode cw = .ok i := by
  cases decode cw <;> simp

/-! ## The mask test -/

theorem cwOp_and_opcodeMask : cwOp (cw &&& opcodeMask) = cwOp cw := by
  rw [cwOp, BitVec.extractLsb'_and]
  exact BitVec.and_allOnes

theorem cwRsv0_and_opcodeMask : cwRsv0 (cw &&& opcodeMask) = cwRsv0 cw := by
  rw [cwRsv0, BitVec.extractLsb'_and]
  exact BitVec.and_allOnes

theorem cwRsv1_and_opcodeMask : cwRsv1 (cw &&& opcodeMask) = cwRsv1 cw := by
  rw [cwRsv1, BitVec.extractLsb'_and]
  exact BitVec.and_allOnes

/-- What the decoder's mask keeps is an opcode alone exactly when the word has that opcode and zero reserved bits
(30_encoding.md R38, R41). -/
theorem and_opcodeMask_eq {op : BitVec 8} :
    cw &&& opcodeMask = op.setWidth 32 ↔ cwOp cw = op ∧ cwRsv0 cw = 0#5 ∧ cwRsv1 cw = 0#8 := by
  rw [← encodeFields_and_mask op (cwFields cw)]
  constructor
  · intro h
    refine ⟨?_, ?_, ?_⟩
    · rw [← cwOp_and_opcodeMask, h, cwOp_and_opcodeMask, cwOp_encodeFields]
    · rw [← cwRsv0_and_opcodeMask, h, cwRsv0_and_opcodeMask, cwRsv0_encodeFields]
    · rw [← cwRsv1_and_opcodeMask, h, cwRsv1_and_opcodeMask, cwRsv1_encodeFields]
  · rintro ⟨rfl, hrsv0, hrsv1⟩
    rw [encodeFields_cwFields hrsv0 hrsv1]

/-- A command with the word's fields is selected exactly by its opcode under the mask. -/
theorem decode_eq_ok_iff_mask {i : Instr} (hf : i.fields = cwFields cw) :
    decode cw = .ok i ↔ cw &&& opcodeMask = (opcode i).setWidth 32 := by
  rw [decode_eq_ok, and_opcodeMask_eq]
  tauto

/-- A word is refused exactly when the mask keeps none of the ten opcodes. -/
theorem exists_decode_eq_error_iff_mask :
    (∃ e, decode cw = .error e) ↔ cw &&& opcodeMask ∉ opcodes.map (BitVec.setWidth 32) := by
  rw [exists_decode_eq_error, exists_decode_eq_ok]
  simp [eq_comm (b := cw &&& opcodeMask), and_opcodeMask_eq]

/-- `NC` is the number in CW[23:16] (30_encoding.md R37). -/
theorem cwFields_eq (cw : Word) :
    cwFields cw = ⟨cw.getLsbD 8, cw.getLsbD 9, cw.getLsbD 10, (cw.toNat / 2 ^ 16) % 256⟩ := by
  simp [cwFields, BitVec.extractLsb'_toNat, Nat.shiftRight_eq_div_pow]

/-- Settles O4: each clause is the mask test for one opcode. -/
theorem maskedWordSelectsCommand : Obligations.MaskedWordSelectsCommand := by
  intro cw f hf
  rw [← cwFields_eq] at hf
  refine ⟨?_, ?_, ?_, ?_, ?_, ?_, ?_, ?_, ?_, ?_, exists_decode_eq_error_iff_mask⟩ <;>
    exact decode_eq_ok_iff_mask hf

end Sys2Proof

namespace Sys2Proof.Machine

variable {cw : Word} {q : Request}

/-! ## Illegal words -/

/-- The test of R47 with the bits of OP, RSV0 and RSV1 read as numbers. -/
theorem exists_decode_eq_ok_iff_toNat : (∃ i, decode cw = .ok i) ↔
    cw.toNat % 256 ∈ [0x01, 0x02, 0x10, 0x11, 0x12, 0x20, 0x21, 0x22, 0x23, 0x24] ∧
      (cw.toNat / 2 ^ 11) % 32 = 0 ∧ cw.toNat / 2 ^ 24 = 0 := by
  have hop : cwOp cw ∈ opcodes ↔ (cwOp cw).toNat ∈ opcodes.map BitVec.toNat :=
    (List.mem_map_of_injective fun _ _ => BitVec.eq_of_toNat_eq).symm
  have hlt := cw.isLt
  have hrsv1 : cw.toNat / 2 ^ 24 % 256 = cw.toNat / 2 ^ 24 := by omega
  rw [exists_decode_eq_ok, hop, ← BitVec.toNat_inj, ← BitVec.toNat_inj]
  simp only [cwOp, cwRsv0, cwRsv1, BitVec.extractLsb'_toNat, Nat.shiftRight_eq_div_pow, Nat.pow_zero, Nat.div_one]
  rw [show 2 ^ 8 = 256 from rfl, hrsv1]
  rfl

theorem statusOk_ne_illegal : statusOk ≠ 0x80 := by decide

theorem statusCode_ne_illegal {e : Condition} (h : e ≠ .illegalCommand) : statusCode e ≠ 0x80 := by
  cases e with
  | illegalCommand => exact absurd rfl h
  | _ => decide

/-- No command raises `IllegalCommand` (60_exceptions.md R82). -/
theorem responseOf_status_ne_illegal (i : Instr) (q : Request) : (responseOf i q).status ≠ 0x80 := by
  obtain ⟨b, h⟩ | ⟨y, h⟩ | ⟨v, h⟩ | ⟨e, he, h⟩ := responseOf_cases i q <;> rw [h]
  · exact statusOk_ne_illegal
  · exact statusOk_ne_illegal
  · exact statusOk_ne_illegal
  · exact statusCode_ne_illegal he

/-- Settles O5: an illegal word is one that does not decode, and no command answers as illegal. -/
theorem illegalWordIsAnsweredIllegal : Obligations.IllegalWordIsAnsweredIllegal := by
  intro s q rest hport
  refine ⟨respond q, step_of_requests hport, fun hillegal => ?_, fun hlegal => ?_⟩
  · have hnot : ¬ ∃ i, decode q.cw = .ok i := by
      rw [exists_decode_eq_ok_iff_toNat]
      tauto
    obtain ⟨e, he⟩ := exists_decode_eq_error.2 hnot
    rw [respond_of_decode_error he]
    rfl
  · obtain ⟨i, hi⟩ := exists_decode_eq_ok_iff_toNat.2 hlegal
    rw [respond_of_decode_ok hi]
    exact responseOf_status_ne_illegal i q

end Sys2Proof.Machine
end

section
/-! Settles O14 and O16: what a response may hold, and what it depends on. -/

namespace Sys2Proof

/-- The same command with other fields in its command word. -/
def Instr.withFields (i : Instr) (f : CwFields) : Instr :=
  match i with
  | .encode _ => .encode f
  | .decode _ => .decode f
  | .makeMask _ => .makeMask f
  | .matchPrefix _ => .matchPrefix f
  | .render _ => .render f
  | .bufNot _ => .bufNot f
  | .bufAnd _ => .bufAnd f
  | .bufOr _ => .bufOr f
  | .setBit _ => .setBit f
  | .concat _ => .concat f

theorem decodeOp_opcode (i : Instr) (f : CwFields) : decodeOp (opcode i) f = some (i.withFields f) := by
  cases i <;> rfl

/-- Commands of one opcode differ in their fields alone: the opcode map is a function of opcode and fields. -/
theorem Instr.eq_withFields_of_opcode_eq {i₁ i₂ : Instr} (h : opcode i₁ = opcode i₂) :
    i₂ = i₁.withFields i₂.fields := by
  have hdecode : decodeOp (opcode i₂) i₂.fields = some i₂ := decodeOp_eq_some.2 ⟨rfl, rfl⟩
  rw [← h, decodeOp_opcode] at hdecode
  exact (Option.some.inj hdecode).symm

end Sys2Proof

namespace Sys2Proof.Machine

/-! ## An error is its STATUS alone -/

/-- `LawfulResponse` without its bound on the result, so that it holds of the response to any request, whatever the
lengths of its buffers (30_encoding.md R46, 60_exceptions.md R84). -/
def ErrorIsStatusAlone (rsp : Response) : Prop :=
  rsp.status ∈ statusCodes ∧ (rsp.status ≠ statusOk → OnlyStatus rsp)

theorem errorIsStatusAlone_of_statusOk {rsp : Response} (h : rsp.status = statusOk) : ErrorIsStatusAlone rsp :=
  ⟨by rw [h]; decide, fun hne => absurd h hne⟩

theorem errorIsStatusAlone_raise (e : Condition) : ErrorIsStatusAlone (raise e) :=
  ⟨statusCode_mem e, fun _ => ⟨raise_r e, raise_y e, raise_flag e⟩⟩

theorem errorIsStatusAlone_responseOf (i : Instr) (q : Request) : ErrorIsStatusAlone (responseOf i q) := by
  obtain ⟨b, h⟩ | ⟨y, h⟩ | ⟨v, h⟩ | ⟨e, -, h⟩ := responseOf_cases i q <;> rw [h]
  · exact errorIsStatusAlone_of_statusOk (okBuffer_status b)
  · exact errorIsStatusAlone_of_statusOk (okLanes_status y)
  · exact errorIsStatusAlone_of_statusOk (okFlag_status v)
  · exact errorIsStatusAlone_raise e

theorem errorIsStatusAlone_respond (q : Request) : ErrorIsStatusAlone (respond q) := by
  cases h : decode q.cw with
  | ok i => exact respond_of_decode_ok h ▸ errorIsStatusAlone_responseOf i q
  | error e => exact respond_of_decode_error h ▸ errorIsStatusAlone_raise .illegalCommand

/-- Settles O14: a step answers with `respond`, a command with `responseOf`. -/
theorem errorResponseIsStatusAlone : Obligations.ErrorResponseIsStatusAlone := by
  rintro s q rest o hport (rfl | ⟨i, rfl⟩)
  · exact ⟨respond q, step_of_requests hport, errorIsStatusAlone_respond q⟩
  · exact ⟨responseOf i q, exec_of_requests i hport, errorIsStatusAlone_responseOf i q⟩

/-! ## A response depends on the fields read -/

/-- The key is made of lanes 0 to k − 1 alone (40_interleaver.md R50). -/
theorem interleave_congr {k w : Nat} {x y : Nat → BitVec w} (h : ∀ d, d < k → x d = y d) :
    interleave k w x = interleave k w y := by
  refine buffer_ext (by simp) fun i _ => ?_
  rw [bit_interleave, bit_interleave]
  rcases Nat.eq_zero_or_pos k with rfl | hk
  · simp
  · rw [h (i % k) (Nat.mod_lt i hk)]

/-- ENCODE reads lanes only when there are K of them, so agreement on the NC lanes is enough (30_encoding.md R44). -/
theorem encodeResponse_congr {f₁ f₂ : CwFields} {q₁ q₂ : Request} (hnc : f₁.nc = f₂.nc)
    (hx : ∀ d, d < f₁.nc → lane q₁ d = lane q₂ d) : encodeResponse f₁ q₁ = encodeResponse f₂ q₂ := by
  by_cases hk : f₁.nc = Config.K
  · rw [encodeResponse_ok hk, encodeResponse_ok (hnc ▸ hk), interleave_congr fun d hd => hx d (hk ▸ hd)]
  · rw [encodeResponse, encodeResponse, if_pos hk, if_pos (hnc ▸ hk)]

/-- The response function of each command sees the request and its word through the fields in its read set alone
(30_encoding.md R44). -/
theorem responseOf_congr {i : Instr} {f : CwFields} {q₁ q₂ : Request}
    (h : AgreeOn (readSet i) i.fields f q₁ q₂) : responseOf i q₁ = responseOf (i.withFields f) q₂ := by
  obtain ⟨ha, hb, hc, harg, hx⟩ := h
  cases i with
  | encode f₁ => exact encodeResponse_congr (hx rfl).1 (hx rfl).2
  | decode f₁ => simp only [responseOf, Instr.withFields, decodeResponse, ← ha rfl, Instr.fields]
  | makeMask f₁ => simp only [responseOf, Instr.withFields, makeMaskResponse, scalar, harg rfl]
  | matchPrefix f₁ =>
    simp only [responseOf, Instr.withFields, matchResponse, scalar, ← ha rfl, ← hb rfl, harg rfl, Instr.fields]
  | render f₁ => simp only [responseOf, Instr.withFields, renderResponse, scalar, ← ha rfl, harg rfl, Instr.fields]
  | bufNot f₁ => simp only [responseOf, Instr.withFields, notResponse, ← ha rfl, Instr.fields]
  | bufAnd f₁ => simp only [responseOf, Instr.withFields, andResponse, ← ha rfl, ← hb rfl, Instr.fields]
  | bufOr f₁ => simp only [responseOf, Instr.withFields, orResponse, ← ha rfl, ← hb rfl, Instr.fields]
  | setBit f₁ => simp only [responseOf, Instr.withFields, setBitResponse, scalar, ← ha rfl, harg rfl, Instr.fields]
  | concat f₁ =>
    simp only [responseOf, Instr.withFields, concatResponse, ← ha rfl, ← hb rfl, ← hc rfl, Instr.fields]

/-- Settles O16: the two commands differ in their fields alone, and agree on every field they read. -/
theorem unreadFieldsAreIgnored : Obligations.UnreadFieldsAreIgnored := by
  refine ⟨fun _ => ⟨rfl, rfl, rfl, rfl, rfl, rfl, rfl, rfl, rfl, rfl⟩, ?_⟩
  intro i₁ i₂ s₁ s₂ q₁ q₂ rest₁ rest₂ hop hport₁ hport₂ hagree
  have hsame : responseOf i₁ q₁ = responseOf i₂ q₂ := by
    rw [Instr.eq_withFields_of_opcode_eq hop]
    exact responseOf_congr hagree
  exact ⟨responseOf i₁ q₁, exec_of_requests i₁ hport₁, hsame ▸ exec_of_requests i₂ hport₂⟩

end Sys2Proof.Machine
end

section
/-! Settles O44: each part of the assembler answers exactly for the arguments a request can carry. -/

namespace Sys2Proof.Machine

variable {lmax : Nat} {vars : HostVars}

/-! ## The parts of the assembler -/

theorem exists_bind_eq_ok {α β ε : Type} {x : Except ε α} {f : α → Except ε β} :
    (∃ b, (x >>= f) = .ok b) ↔ ∃ a, x = .ok a ∧ ∃ b, f a = .ok b := by
  simp only [bind_eq_ok]
  exact ⟨fun ⟨b, a, hx, hf⟩ => ⟨a, hx, b, hf⟩, fun ⟨a, hx, b, hf⟩ => ⟨b, a, hx, hf⟩⟩

theorem exists_pure_eq_ok {α ε : Type} (a : α) : ∃ b, (pure a : Except ε α) = .ok b := ⟨a, rfl⟩

theorem exists_resolveBuffer_eq_ok {arg : BufferArg} :
    (∃ o, resolveBuffer lmax vars arg = .ok o) ↔ Carries lmax vars arg := by
  constructor
  · rintro ⟨o, ho⟩
    obtain ⟨hholds, hlen⟩ := resolveBuffer_ok ho
    exact ⟨o.isSome, o.getD [], hholds, fun _ => hlen⟩
  · rintro ⟨isPresent, bytes, hholds, hlen⟩
    cases arg with
    | literal b =>
      obtain ⟨hpresent, rfl⟩ := hholds
      exact ⟨_, slotOf_eq_ok.2 ⟨hlen hpresent, rfl⟩⟩
    | null => exact ⟨_, resolveBuffer_null⟩
    | resultOf n =>
      obtain ⟨hpresent, rsp, hlookup, hstatus, rfl⟩ := hholds
      refine ⟨some rsp.r, ?_⟩
      simp only [resolveBuffer, namedResult_eq_ok.2 ⟨hlookup, hstatus⟩]
      exact slotOf_eq_ok.2 ⟨hlen hpresent, rfl⟩

theorem exists_resolveScalar_eq_ok {n : Int} : (∃ w, resolveScalar n = .ok w) ↔ ScalarFits n :=
  ⟨fun ⟨_, hw⟩ => (resolveScalar_ok hw).1, fun hn => ⟨_, if_pos hn⟩⟩

theorem resolveLanes_cons_of_ok {x : LaneArg} {xs : List LaneArg} {v : Config.Lane} {vs : List Config.Lane}
    (hx : resolveLane vars x = .ok v) (hxs : resolveLanes vars xs = .ok vs) :
    resolveLanes vars (x :: xs) = .ok (v :: vs) := by
  simp only [resolveLanes, hx, hxs]

theorem exists_resolveLanes_eq_ok {xs : List LaneArg} :
    (∃ vs, resolveLanes vars xs = .ok vs) ↔ ∀ x ∈ xs, ∃ v, HoldsLane vars x v := by
  constructor
  · rintro ⟨vs, hvs⟩ x hx
    obtain ⟨j, hj⟩ := List.mem_iff_getElem?.1 hx
    obtain ⟨v, -, hv⟩ := exists_getElem?_of_forall₂ (resolveLanes_ok hvs) hj
    exact ⟨v, hv⟩
  · intro h
    induction xs with
    | nil => exact ⟨[], rfl⟩
    | cons x xs ih =>
      obtain ⟨hx, hxs⟩ := List.forall_mem_cons.1 h
      obtain ⟨v, hv⟩ := hx
      obtain ⟨vs, hvs⟩ := ih hxs
      exact ⟨v :: vs, resolveLanes_cons_of_ok (resolveLane_eq_ok.2 hv) hvs⟩

/-- Settles O44, by the line's command: it assembles exactly when each of its arguments resolves. -/
theorem expressibleLinesAssemble : Obligations.ExpressibleLinesAssemble := by
  intro lmax vars c
  cases c with
  | encode xs =>
    simp only [assemble, Expressible]
    split
    · next hlong =>
      have hlen : ¬ xs.length ≤ 255 := Nat.not_le.2 hlong
      simp only [reduceCtorEq, exists_false, hlen, false_and]
    · next hshort =>
      have hlen : xs.length ≤ 255 := Nat.not_lt.1 hshort
      simp only [exists_bind_eq_ok, exists_pure_eq_ok, exists_resolveLanes_eq_ok, and_true, hlen, true_and]
  | _ =>
    simp only [assemble, Expressible, exists_bind_eq_ok, exists_pure_eq_ok, exists_and_right, and_true,
      exists_resolveBuffer_eq_ok, exists_resolveScalar_eq_ok]

end Sys2Proof.Machine
end

section
/-! Settles O20 to O24, O26 and O27: bit k·p + d of a key is position p of coordinate d, so the interleave and its inverse
only move bits, and the two responses carry those bits as they are. -/

namespace Sys2Proof.Machine

variable {k w : Nat}

/-! ## Key bit k·p + d -/

/-- 40_interleaver.md R50 by coordinate and position. -/
theorem bit_interleave_mul_add {d p : Nat} (x : Nat → BitVec w) (hd : d < k) (hp : p < w) :
    bit (interleave k w x) (k * p + d) = (x d).getMsbD p := by
  have hlt : k * p + d < k * w := Nat.mul_comm w k ▸ Nat.mul_add_lt_mul_of_lt_of_lt hp hd
  rw [bit_interleave, decide_eq_true hlt, Bool.true_and, Nat.mul_add_mod, Nat.mod_eq_of_lt hd,
    Nat.mul_add_div (Nat.zero_lt_of_lt hd), Nat.div_eq_of_lt hd, Nat.add_zero]

/-- 40_interleaver.md R50, R55: the pad bits of a key are zero. -/
theorem bit_interleave_pad {i : Nat} (x : Nat → BitVec w) (hi : k * w ≤ i) : bit (interleave k w x) i = false := by
  rw [bit_interleave, decide_eq_false (Nat.not_lt.2 hi), Bool.false_and]

/-! ## The two maps are inverse -/

/-- 40_interleaver.md R52. -/
theorem deinterleave_interleave {d : Nat} (x : Nat → BitVec w) (hd : d < k) :
    deinterleave k w (interleave k w x) d = x d := by
  refine BitVec.eq_of_getMsbD_eq fun p hp => ?_
  rw [getMsbD_deinterleave _ hd hp, Nat.mul_comm, bit_interleave_mul_add x hd hp]

/-- 40_interleaver.md R54. -/
theorem interleave_deinterleave {key : Buffer} (hlen : key.length = Config.keyLen k w)
    (hpad : ∀ i, k * w ≤ i → i < 8 * Config.keyLen k w → bit key i = false) :
    interleave k w (deinterleave k w key) = key := by
  refine buffer_ext (by rw [length_interleave, hlen]) fun i hi => ?_
  rw [length_interleave] at hi
  by_cases hkw : i < k * w
  · have hk : 0 < k := Nat.pos_of_lt_mul_right hkw
    rw [bit_interleave, decide_eq_true hkw, Bool.true_and,
      getMsbD_deinterleave key (Nat.mod_lt i hk) (Nat.div_lt_of_lt_mul hkw), Nat.div_add_mod']
  · rw [bit_interleave_pad _ (Nat.not_lt.1 hkw), hpad i (Nat.not_lt.1 hkw) hi]

/-- 40_interleaver.md R55: DECODE reads the bits below K·W alone. -/
theorem deinterleave_congr {b₁ b₂ : Buffer} (h : ∀ i, i < k * w → bit b₁ i = bit b₂ i) (d : Nat) :
    deinterleave k w b₁ d = deinterleave k w b₂ d := by
  rw [deinterleave, deinterleave, List.filter_congr fun i hi => by rw [h i (List.mem_range.1 hi)]]

/-- Every bit of a 12-byte key belongs to a coordinate (40_interleaver.md R55). -/
theorem interleave_deinterleave_12 {key : Buffer} (hlen : key.length = 12) :
    interleave 3 32 (deinterleave 3 32 key) = key :=
  interleave_deinterleave hlen fun _ hkw hi => absurd hi (Nat.not_lt.2 hkw)

/-- Where no pad bits are, the interleave moves the complemented bits as it moves the bits. -/
theorem interleave_not (x : Nat → BitVec w) (hkw : 8 ∣ k * w) :
    interleave k w (fun d => ~~~(x d)) = complement (interleave k w x) := by
  refine buffer_ext (by simp) fun i hi => ?_
  rw [length_interleave] at hi
  have hi' : i < k * w := by have := keyLen_lt k w; omega
  rw [bit_complement (by rwa [length_interleave]), bit_interleave, bit_interleave, BitVec.getMsbD_not,
    decide_eq_true hi', decide_eq_true (Nat.div_lt_of_lt_mul hi')]
  simp only [Bool.true_and]

/-! ## The two commands -/

variable {f : CwFields} {s : State} {q : Request} {rest : List Request}

theorem exec_encode_of_requests (hport : s.requests = q :: rest) (hnc : f.nc = 3) :
    exec (.encode f) s =
      .next { requests := rest, responses := s.responses ++ [okBuffer (interleave 3 32 (lane q))] } := by
  rw [exec_of_requests _ hport, responseOf, encodeResponse_ok hnc]

theorem exec_decode_of_requests (hport : s.requests = q :: rest) (hpa : f.pa = true) (hlen : q.a.length = 12) :
    exec (.decode f) s =
      .next { requests := rest, responses := s.responses ++ [okLanes (deinterleave 3 32 q.a)] } := by
  rw [exec_of_requests _ hport, responseOf, decodeResponse_ok hpa hlen]

/-- The coordinates of a response written out. -/
theorem okLanes_eq (y : Nat → Config.Lane) :
    okLanes y = { status := 0x00, r := [], y := #v[y 0, y 1, y 2], flag := false } := rfl

/-- The three lanes of a request that carries them. -/
theorem lane_of_three {x : Nat → Config.Lane} (hx : q.x = [x 0, x 1, x 2]) {d : Nat} (hd : d < 3) :
    lane q d = x d := by
  apply lane_of_carried
  rw [hx]
  interval_cases d <;> rfl

/-! ## A lane as a number -/

/-- The pattern of a negative two's-complement number (40_interleaver.md R53). -/
theorem toNat_ofInt_of_neg {n : Int} (hmin : -(2 ^ w) ≤ n) (hneg : n < 0) :
    (BitVec.ofInt w n).toNat = (n + 2 ^ w).toNat := by
  rw [BitVec.toNat_ofInt, ← Int.add_emod_right, Nat.cast_pow, Nat.cast_ofNat, Int.emod_eq_of_lt (by omega) (by omega)]

/-! ## The statements -/

/-- Settles O20: the result is the interleave of the lanes. -/
theorem encodeInterleavesTheLanes : Obligations.EncodeInterleavesTheLanes := by
  intro f s q rest hport hnc
  refine ⟨_, exec_encode_of_requests hport hnc, rfl, length_interleave 3 32 _, rfl, rfl, fun d v hd hv p hp => ?_⟩
  rw [okBuffer_r, bit_interleave_mul_add _ hd hp, lane_of_carried hv]

/-- Settles O21: the result is the inverse of the interleave on the key. -/
theorem decodeRoutesKeyBitsBack : Obligations.DecodeRoutesKeyBitsBack := by
  intro f s q rest hport hpa hlen
  refine ⟨_, exec_decode_of_requests hport hpa hlen, rfl, rfl, rfl, fun d hd p hp => ?_⟩
  rw [okLanes_y _ d hd, getMsbD_deinterleave _ hd hp, Nat.mul_comm]

/-- Settles O22: the key is the interleave of the request's lanes, from which each lane comes back. -/
theorem decodeOfEncodeIsTheCoordinates : Obligations.DecodeOfEncodeIsTheCoordinates := by
  refine ⟨fun k w x d hd => deinterleave_interleave x hd, ?_⟩
  intro x y t fe fd s q rest hnc hpa hport hx
  refine ⟨interleave 3 32 (lane q), exec_encode_of_requests hport hnc, fun s' q' rest' hport' hkey => ?_⟩
  have hlen : q'.a.length = 12 := by rw [hkey]; exact length_interleave 3 32 _
  have hlane : ∀ d v, d < 3 → q.x[d]? = some v → deinterleave 3 32 q'.a d = v := fun d v hd hv => by
    rw [hkey, deinterleave_interleave _ hd, lane_of_carried hv]
  rw [exec_decode_of_requests hport' hpa hlen, okLanes_eq, hlane 0 x (by decide) (by simp [hx]),
    hlane 1 y (by decide) (by simp [hx]), hlane 2 t (by decide) (by simp [hx])]

/-- Settles O23: the coordinates are those of the key, and the lanes that carry them interleave to it again. -/
theorem encodeOfDecodeIsTheKey : Obligations.EncodeOfDecodeIsTheKey := by
  refine ⟨fun k w key => interleave_deinterleave,
    fun x => ⟨length_interleave 3 32 x, fun d hd => deinterleave_interleave x hd⟩, ?_⟩
  rintro key fe fd s q rest hlen hnc hpa hport rfl
  refine ⟨_, _, _, exec_decode_of_requests hport hpa hlen, fun s' q' rest' hport' hx => ?_⟩
  have hkey : interleave 3 32 (lane q') = q.a := by
    rw [interleave_congr fun d => lane_of_three hx, interleave_deinterleave_12 hlen]
  rw [exec_encode_of_requests hport' hnc, hkey]
  rfl

/-- Settles O24: a pad bit is at or beyond K·W, where keys and masks are zero and RENDER shows no digit. -/
theorem padBitsCarryNothing : Obligations.PadBitsCarryNothing := by
  refine ⟨fun k w i x hi _ => bit_interleave_pad x hi, fun k w b₁ b₂ d h => deinterleave_congr h d,
    fun k w n i _ hn hi _ => ?_, fun k w n i key _ hn hi hlt => ?_, rfl, rfl⟩
  · rw [bit_prefixMask hn, decide_eq_false (by omega)]
  · rw [← length_renderKey k w key n] at hlt
    rw [List.getElem?_eq_getElem hlt, getElem_renderKey, renderChar, if_neg (by omega)]

/-- Settles O26: a bit is complemented before it moves or after. -/
theorem encodeCommutesWithComplement : Obligations.EncodeCommutesWithComplement :=
  fun _ _ x hkw => interleave_not x hkw

/-- Settles O27: the key carries the bits of a lane (O20), and the pattern of a negative n is the number n + 2^W. -/
theorem negativeCoordinateIsItsBitPattern : Obligations.NegativeCoordinateIsItsBitPattern := by
  refine ⟨fun k w n d p hd hp hmin hneg => ?_, fun f s q rest hport hnc => ?_⟩
  · rw [bit_interleave_mul_add _ hd hp, getMsbD_eq_testBit _ hp, toNat_ofInt_of_neg (by omega) hneg]
  · obtain ⟨rsp, hexec, hstatus, hlen, hy, hflag, hbits⟩ := encodeInterleavesTheLanes f s q rest hport hnc
    have hweight : ∀ d v, d < 3 → q.x[d]? = some v → ∀ p, p < 32 →
        bit rsp.r (3 * p + d) = v.toNat.testBit (31 - p) := fun d v hd hv p hp =>
      (hbits d v hd hv p hp).trans (getMsbD_eq_testBit v hp)
    refine ⟨rsp, hexec, hstatus, hlen, hy, hflag, hweight, fun d n hd hmin hneg hv p hp => ?_⟩
    rw [hweight d _ hd hv p hp, toNat_ofInt_of_neg (w := 32) (by omega) hneg]

end Sys2Proof.Machine
end

section
/-! Settles O28 to O34: the mask is a byte form and a set of bits, MATCH compares bits under it, and the three responses
carry the mask, the comparison and the rendering as they are. -/

namespace Sys2Proof.Machine

variable {k w n : Nat}

/-! ## The mask -/

/-- 41_prefixmask.md R57 for every byte: byte j holds the n − 8·j leading ones that are left for it, none or at most
eight. -/
theorem getElem_prefixMask {j : Nat} (hn : n ≤ k * w) (hj : j < (prefixMask k w n).length) :
    (prefixMask k w n)[j] = 0xFF#8 <<< (8 - (n - 8 * j)) := by
  refine BitVec.eq_of_getMsbD_eq fun m hm => ?_
  rw [← bit_byte hj hm, bit_prefixMask hn, BitVec.getMsbD_eq_getLsbD, BitVec.getLsbD_shiftLeft,
    show 0xFF#8 = BitVec.allOnes 8 from rfl, BitVec.getLsbD_allOnes, Bool.eq_iff_iff]
  simp only [Bool.and_eq_true, Bool.not_eq_true', decide_eq_true_eq, decide_eq_false_iff_not]
  omega

/-- 41_prefixmask.md R57: whole bytes of ones, the byte with the last of the leading ones, whole bytes of zeros. -/
theorem prefixMask_eq_bytes (h1 : 1 ≤ n) (hn : n ≤ k * w) :
    prefixMask k w n = List.replicate ((n - 1) / 8) 0xFF#8 ++ [0xFF#8 <<< (8 - (n - 8 * ((n - 1) / 8)))] ++
      List.replicate (Config.keyLen k w - (n - 1) / 8 - 1) 0x00#8 := by
  have hlen := le_keyLen k w
  refine List.ext_getElem (by simp; omega) fun j hj _ => ?_
  rw [getElem_prefixMask hn hj]
  rcases Nat.lt_trichotomy j ((n - 1) / 8) with hlt | rfl | hgt
  · have hones : 8 - (n - 8 * j) = 0 := by omega
    simp [hlt, hones]
  · simp
  · have hzeros : 8 - (n - 8 * j) = 8 := by omega
    rw [List.getElem_append_right (by simp; omega), List.getElem_replicate, hzeros]
    rfl

/-- 41_prefixmask.md R60: at a byte boundary the last byte with ones is a whole one. -/
theorem prefixMask_mul_eight {b : Nat} (h1 : 1 ≤ b) (hb : 8 * b ≤ k * w) :
    prefixMask k w (8 * b) = List.replicate b 0xFF#8 ++ List.replicate (Config.keyLen k w - b) 0x00#8 := by
  obtain ⟨m, rfl⟩ := Nat.exists_eq_add_of_le' h1
  have hq : (8 * (m + 1) - 1) / 8 = m := by omega
  have hr : 8 - (8 * (m + 1) - 8 * m) = 0 := by omega
  rw [prefixMask_eq_bytes (by omega) hb, hq, hr, List.replicate_succ', Nat.sub_sub]
  rfl

/-- 41_prefixmask.md R61: the number of set positions of the mask. -/
theorem length_filter_bit_prefixMask (hn : n ≤ k * w) :
    ((List.range (8 * Config.keyLen k w)).filter fun i => bit (prefixMask k w n) i).length = n := by
  simp only [bit_prefixMask hn]
  rw [← List.Ico.zero_bot, List.Ico.filter_lt, List.Ico.length, Nat.sub_zero,
    Nat.min_eq_right (hn.trans (le_keyLen k w))]

/-! ## What MATCH compares -/

/-- 41_prefixmask.md R63, for every K and W. -/
theorem matchFlag_iff {pre cand : Buffer} (hn : n ≤ k * w) (hpre : Config.keyLen k w ≤ pre.length)
    (hcand : Config.keyLen k w ≤ cand.length) :
    matchFlag k w pre n cand = true ↔
      (∀ i, i < n → bit pre i = bit cand i) ∧ (∀ i, n ≤ i → i < 8 * Config.keyLen k w → bit pre i = false) := by
  have hlen := le_keyLen k w
  rw [matchFlag_eq_true hn hpre hcand]
  constructor
  · intro h
    refine ⟨fun i hi => ?_, fun i hi hlt => ?_⟩
    · simpa [hi] using h i (by omega)
    · simpa [Nat.not_lt.2 hi] using h i hlt
  · rintro ⟨hbelow, hbeyond⟩ i hlt
    by_cases hi : i < n
    · simpa [hi] using hbelow i hi
    · simpa [hi] using hbeyond i (Nat.not_lt.1 hi) hlt

/-- 41_prefixmask.md R63 for this hardware. -/
theorem matchFlag_iff_96 {pre cand : Buffer} (hn : n ≤ 96) (hpre : 12 ≤ pre.length) (hcand : 12 ≤ cand.length) :
    matchFlag 3 32 pre n cand = true ↔
      (∀ i, i < n → bit pre i = bit cand i) ∧ (∀ i, n ≤ i → i < 96 → bit pre i = false) :=
  matchFlag_iff (k := 3) (w := 32) hn hpre hcand

/-- Candidates with the same bits below n get the same answer. -/
theorem matchFlag_congr {pre c₁ c₂ : Buffer} (hn : n ≤ k * w) (hpre : Config.keyLen k w ≤ pre.length)
    (h₁ : Config.keyLen k w ≤ c₁.length) (h₂ : Config.keyLen k w ≤ c₂.length)
    (h : ∀ i, i < n → bit c₁ i = bit c₂ i) : matchFlag k w pre n c₁ = matchFlag k w pre n c₂ := by
  rw [Bool.eq_iff_iff, matchFlag_iff hn hpre h₁, matchFlag_iff hn hpre h₂]
  refine and_congr_left fun _ => forall₂_congr fun i hi => ?_
  rw [h i hi]

/-- 41_prefixmask.md R62: a key matches itself truncated under the mask. -/
theorem matchFlag_conjunction_prefixMask {key : Buffer} (hn : n ≤ k * w) (hlen : key.length = Config.keyLen k w) :
    matchFlag k w (conjunction key (prefixMask k w n)) n key = true := by
  have hmask : key.length = (prefixMask k w n).length := by rw [hlen, length_prefixMask]
  rw [matchFlag_eq_true hn (by rw [length_conjunction hmask, hlen]) hlen.ge]
  intro i _
  rw [bit_conjunction hmask, bit_prefixMask hn]

@[simp] theorem length_flipBit (b : Buffer) (p : Nat) : (flipBit b p).length = b.length := by simp [flipBit]

theorem getMsbD_xor_single (v : Byte) {m i : Nat} (hm : m < 8) (hi : i < 8) :
    (v ^^^ (0x80#8 >>> m)).getMsbD i = (v.getMsbD i ^^ decide (i = m)) := by
  rw [BitVec.getMsbD_xor, ← BitVec.zero_or (x := 0x80#8 >>> m), getMsbD_or_single _ hm hi, BitVec.getMsbD_zero,
    Bool.false_or, beq_eq_decide]

/-- One bit is flipped, every other bit of the buffer is as before. -/
theorem bit_flipBit {b : Buffer} (p : Nat) {i : Nat} (hi : i < 8 * b.length) :
    bit (flipBit b p) i = (bit b i ^^ decide (i = p)) := by
  have hj : i / 8 < b.length := by omega
  rw [bit_eq_getMsbD hj, bit_eq_getMsbD (by simpa using hj)]
  simp only [flipBit, List.getElem_modify]
  by_cases hp : p / 8 = i / 8
  · have hpos : (i % 8 = p % 8) ↔ (i = p) := by omega
    rw [if_pos hp, getMsbD_xor_single _ (by omega) (by omega), decide_eq_decide.2 hpos]
  · have hne : i ≠ p := by rintro rfl; exact hp rfl
    simp [hp, hne]

theorem bit_take {m i : Nat} (b : Buffer) (hi : i < 8 * m) : bit (b.take m) i = bit b i := by
  have hj : i / 8 < m := by omega
  simp [bit, hj]

/-- Two buffers begin with the same m bytes exactly when they begin with the same bits. -/
theorem take_eq_take_iff_bit {m : Nat} {a b : Buffer} (ha : m ≤ a.length) (hb : m ≤ b.length) :
    a.take m = b.take m ↔ ∀ i, i < 8 * m → bit a i = bit b i := by
  constructor
  · intro h i hi
    rw [← bit_take a hi, h, bit_take b hi]
  · intro h
    refine buffer_ext (by simp [ha, hb]) fun i hi => ?_
    have hi' : i < 8 * m := by simpa [ha] using hi
    rw [bit_take a hi', bit_take b hi', h i hi']

/-- 41_prefixmask.md R60: under the full mask MATCH is equality. -/
theorem matchFlag_96 {a b : Buffer} (ha : 12 ≤ a.length) (hb : 12 ≤ b.length) :
    matchFlag 3 32 a 96 b = decide (a.take 12 = b.take 12) := by
  rw [Bool.eq_iff_iff, matchFlag_iff_96 le_rfl ha hb, decide_eq_true_eq, take_eq_take_iff_bit ha hb]
  exact and_iff_left fun i hi hlt => absurd hlt (Nat.not_lt.2 hi)

/-! ## The three commands -/

variable {f : CwFields} {s : State} {q : Request} {rest : List Request}

/-- A scalar in [1, 96] as a natural number. -/
theorem exists_prefixLength {m : Int} (h1 : 1 ≤ m) (h96 : m ≤ 96) : ∃ n : Nat, m = n ∧ 1 ≤ n ∧ n ≤ 96 :=
  ⟨m.toNat, by omega, by omega, by omega⟩

theorem exec_makeMask_of_requests (hport : s.requests = q :: rest) (harg : q.arg.toInt = n) (h1 : 1 ≤ n)
    (h96 : n ≤ 96) :
    exec (.makeMask f) s =
      .next { requests := rest, responses := s.responses ++ [okBuffer (prefixMask 3 32 n)] } := by
  rw [exec_of_requests _ hport, responseOf, makeMaskResponse_ok (prefixLength_eq_some.2 ⟨h1, h96, harg⟩)]

theorem exec_makeMask_of_invalid (hport : s.requests = q :: rest) (harg : q.arg.toInt < 1 ∨ 96 < q.arg.toInt) :
    exec (.makeMask f) s =
      .next { requests := rest, responses := s.responses ++ [raise .invalidPrefixLength] } := by
  have hnone : prefixLength Config.K Config.W (scalar q) = none := prefixLength_eq_none.2 harg
  rw [exec_of_requests _ hport, responseOf, makeMaskResponse, hnone]

theorem exec_match_of_requests (hport : s.requests = q :: rest) (hpa : f.pa = true) (hpb : f.pb = true)
    (harg : q.arg.toInt = n) (h1 : 1 ≤ n) (h96 : n ≤ 96) (ha : 12 ≤ q.a.length) (hb : 12 ≤ q.b.length) :
    exec (.matchPrefix f) s =
      .next { requests := rest, responses := s.responses ++ [okFlag (matchFlag 3 32 q.a n q.b)] } := by
  rw [exec_of_requests _ hport, responseOf,
    matchResponse_ok hpa hpb (prefixLength_eq_some.2 ⟨h1, h96, harg⟩) ha hb]

theorem exec_render_of_requests (hport : s.requests = q :: rest) (hpa : f.pa = true) (harg : q.arg.toInt = n)
    (h1 : 1 ≤ n) (h96 : n ≤ 96) (hlen : q.a.length = 12) :
    exec (.render f) s =
      .next { requests := rest, responses := s.responses ++ [okBuffer (renderKey 3 32 q.a n)] } := by
  rw [exec_of_requests _ hport, responseOf, renderResponse_ok hpa (prefixLength_eq_some.2 ⟨h1, h96, harg⟩) hlen]

/-! ## The statements -/

/-- Settles O28, by whether the scalar is in [1, 96]. -/
theorem makeMaskSetsTheLeadingBits : Obligations.MakeMaskSetsTheLeadingBits := by
  intro f s q rest hport
  by_cases hrange : 1 ≤ q.arg.toInt ∧ q.arg.toInt ≤ 96
  · obtain ⟨n, harg, h1, h96⟩ := exists_prefixLength hrange.1 hrange.2
    refine ⟨_, exec_makeMask_of_requests hport harg h1 h96, rfl, rfl,
      fun _ => ⟨rfl, length_prefixMask 3 32 n, fun i _ => ?_⟩, fun hout => by omega⟩
    rw [okBuffer_r, bit_prefixMask h96, harg]
    exact decide_eq_decide.2 Int.ofNat_lt.symm
  · exact ⟨_, exec_makeMask_of_invalid hport (by omega), rfl, rfl, fun h => absurd h hrange, fun _ => ⟨rfl, rfl⟩⟩

/-- Settles O29: the byte form, and the bounds of its two numbers. -/
theorem maskByteForm : Obligations.MaskByteForm := by
  intro k w n h1 hn
  have hlen := le_keyLen k w
  exact ⟨by omega, by omega, by omega, prefixMask_eq_bytes h1 hn⟩

/-- Settles O30: the set positions are those below n. -/
theorem maskHasExactlyNBits : Obligations.MaskHasExactlyNBits := by
  intro k w n _ hn
  exact ⟨length_filter_bit_prefixMask hn, fun i _ => by rw [bit_prefixMask hn, decide_eq_true_eq]⟩

/-- Settles O31, from the byte form of the mask and from MATCH under the full mask. -/
theorem byteBoundaryMasks : Obligations.ByteBoundaryMasks := by
  refine ⟨fun k w b => prefixMask_mul_eight, prefixMask_mul_eight (b := 12) (by decide) (by decide), ?_⟩
  intro f s q rest hport hpa hpb harg ha hb
  have harg' : q.arg.toInt = (96 : Nat) := by rw [harg]; rfl
  refine ⟨_, exec_match_of_requests hport hpa hpb harg' (by decide) le_rfl ha hb, ?_⟩
  rw [matchFlag_96 ha hb]
  rfl

/-- Settles O32: a flipped bit below n is one the two buffers no longer share, and one at n or beyond is not
compared. -/
theorem matchDependsOnPrefixBits : Obligations.MatchDependsOnPrefixBits := by
  intro f s q rest hport hpa hpb hlo hhi ha hb
  obtain ⟨n, harg, h1, h96⟩ := exists_prefixLength hlo hhi
  have hiff := matchFlag_iff_96 h96 ha hb
  refine ⟨_, exec_match_of_requests hport hpa hpb harg h1 h96 ha hb, rfl, rfl, rfl, ?_, ?_⟩
  · simpa only [okFlag_flag, harg, Int.ofNat_lt, Int.ofNat_le] using hiff
  · intro p s' rest' hport'
    have hb' : 12 ≤ (flipBit q.b p).length := by rwa [length_flipBit]
    have hflip : ∀ i, i < n → bit (flipBit q.b p) i = (bit q.b i ^^ decide (i = p)) :=
      fun i hi => bit_flipBit p (by omega)
    refine ⟨_, exec_match_of_requests hport' hpa hpb harg h1 h96 ha hb', fun hp htrue => ?_, fun hp => ?_⟩
    · have hpn : p < n := by omega
      have hbelow := (hiff.1 htrue).1
      refine Bool.eq_false_iff.2 fun htrue' => ?_
      have hbelow' := ((matchFlag_iff_96 h96 ha hb').1 htrue').1
      have hsame : bit q.b p = bit (flipBit q.b p) p := (hbelow p hpn).symm.trans (hbelow' p hpn)
      simp [hflip p hpn] at hsame
    · refine congrArg okFlag (matchFlag_congr (k := 3) (w := 32) h96 ha hb' hb fun i hi => ?_)
      have hne : i ≠ p := by omega
      simp [hflip i hi, hne]

/-- Settles O33: the truncated key agrees with the key under the mask, the untruncated one only where it
is zero from n on. -/
theorem matchConsistency : Obligations.MatchConsistency := by
  refine ⟨fun f s q rest n hport hpa hpb h1 h96 harg hlen => ?_, by decide⟩
  have hnat : q.arg.toNat = n := by rw [harg, BitVec.toNat_ofNat, Nat.mod_eq_of_lt (by omega)]
  have harg' : q.arg.toInt = n := by rw [BitVec.toInt_eq_toNat_of_lt (by omega), hnat]
  constructor
  · intro ha
    have hmask : q.b.length = (prefixMask 3 32 n).length := by rw [hlen, length_prefixMask]; rfl
    have hla : 12 ≤ q.a.length := by rw [ha, length_conjunction hmask, hlen]
    refine ⟨_, exec_match_of_requests hport hpa hpb harg' h1 h96 hla hlen.ge, rfl, ?_⟩
    rw [okFlag_flag, ha]
    exact matchFlag_conjunction_prefixMask h96 hlen
  · intro ha
    have hla : 12 ≤ q.a.length := by rw [ha, hlen]
    have hiff : matchFlag 3 32 q.a n q.b = true ↔ ∀ i, n ≤ i → i < 96 → bit q.b i = false := by
      rw [matchFlag_iff_96 h96 hla hlen.ge, ha]
      exact and_iff_right fun _ _ => rfl
    refine ⟨_, exec_match_of_requests hport hpa hpb harg' h1 h96 hla hlen.ge, rfl, hiff, ?_⟩
    rintro rfl
    exact hiff.2 fun i hi hlt => absurd hlt (Nat.not_lt.2 hi)

/-- Settles O34: character i of the result is the code of key bit i, or the star. -/
theorem renderShowsThePrefix : Obligations.RenderShowsThePrefix := by
  intro f s q rest hport hpa hlo hhi hlen
  obtain ⟨n, harg, h1, h96⟩ := exists_prefixLength hlo hhi
  have hlen' : (renderKey 3 32 q.a n).length = 96 := length_renderKey 3 32 q.a n
  refine ⟨_, exec_render_of_requests hport hpa harg h1 h96 hlen, rfl, rfl, rfl, hlen', fun i hi => ?_⟩
  rw [okBuffer_r, List.getElem?_eq_getElem (hlen'.symm ▸ hi), getElem_renderKey, renderChar]
  simp only [harg, Int.ofNat_lt]

end Sys2Proof.Machine
end

section
/-! Settles O35 to O41: a success with a buffer carries the operation's result as it is, and each operation is known by
the bits it gives, so the identities are those of the Booleans, bit by bit. -/

namespace Sys2Proof.Machine

/-! ## Bytes of a result -/

/-- 42_bitops.md R64 by bytes. -/
theorem getElem?_complement (b : Buffer) (j : Nat) : (complement b)[j]? = b[j]?.map fun v => ~~~v := List.getElem?_map

/-- 42_bitops.md R67: SETBIT copies every byte but the one that holds the position. -/
theorem getElem?_withBit1_of_ne {p j : Nat} (b : Buffer) (h : j ≠ p / 8) : (withBit1 b p)[j]? = b[j]? :=
  List.getElem?_modify_ne _ _ h.symm

/-- 42_bitops.md R71: sequential placement. -/
theorem getElem?_join3 (b₁ b₂ b₃ : Buffer) (j : Nat) :
    (join3 b₁ b₂ b₃)[j]? =
      if j < b₁.length then b₁[j]?
      else if j < b₁.length + b₂.length then b₂[j - b₁.length]?
      else b₃[j - b₁.length - b₂.length]? := by
  rw [join3, List.append_assoc, List.getElem?_append, List.getElem?_append]
  by_cases hj : j < b₁.length
  · rw [if_pos hj, if_pos hj]
  · simp only [if_neg hj, Nat.sub_lt_iff_lt_add' (Nat.not_lt.1 hj)]

/-! ## Complement, conjunction and disjunction -/

variable {a b c : Buffer}

/-- 42_bitops.md R69. -/
theorem complement_complement (b : Buffer) : complement (complement b) = b := by
  refine buffer_ext (by simp) fun i hi => ?_
  have hi' : i < 8 * b.length := by simpa using hi
  rw [bit_complement (by simpa using hi'), bit_complement hi', Bool.not_not]

/-- 42_bitops.md R70. -/
theorem conjunction_ones (b : Buffer) : conjunction b (ones b.length) = b := by
  have hlen : b.length = (ones b.length).length := (length_ones _).symm
  refine buffer_ext (length_conjunction hlen) fun i hi => ?_
  rw [length_conjunction hlen] at hi
  rw [bit_conjunction hlen, bit_ones hi, Bool.and_true]

/-- 42_bitops.md R70. -/
theorem disjunction_zeros (b : Buffer) : disjunction b (zeros b.length) = b := by
  have hlen : b.length = (zeros b.length).length := (length_zeros _).symm
  refine buffer_ext (length_disjunction hlen) fun i _ => ?_
  rw [bit_disjunction hlen, bit_zeros, Bool.or_false]

theorem conjunction_self (b : Buffer) : conjunction b b = b :=
  buffer_ext (length_conjunction rfl) fun i _ => by rw [bit_conjunction rfl, Bool.and_self]

theorem disjunction_self (b : Buffer) : disjunction b b = b :=
  buffer_ext (length_disjunction rfl) fun i _ => by rw [bit_disjunction rfl, Bool.or_self]

theorem conjunction_complement (b : Buffer) : conjunction b (complement b) = zeros b.length := by
  have hlen : b.length = (complement b).length := (length_complement b).symm
  refine buffer_ext (by rw [length_conjunction hlen, length_zeros]) fun i hi => ?_
  rw [length_conjunction hlen] at hi
  rw [bit_conjunction hlen, bit_complement hi, bit_zeros, Bool.and_not_self]

theorem disjunction_complement (b : Buffer) : disjunction b (complement b) = ones b.length := by
  have hlen : b.length = (complement b).length := (length_complement b).symm
  refine buffer_ext (by rw [length_disjunction hlen, length_ones]) fun i hi => ?_
  rw [length_disjunction hlen] at hi
  rw [bit_disjunction hlen, bit_complement hi, bit_ones hi, Bool.or_not_self]

theorem conjunction_comm (a b : Buffer) : conjunction a b = conjunction b a :=
  List.zipWith_comm_of_comm BitVec.and_comm

theorem disjunction_comm (a b : Buffer) : disjunction a b = disjunction b a :=
  List.zipWith_comm_of_comm BitVec.or_comm

theorem conjunction_assoc (hab : a.length = b.length) (hbc : b.length = c.length) :
    conjunction (conjunction a b) c = conjunction a (conjunction b c) := by
  have hl : (conjunction a b).length = c.length := by rw [length_conjunction hab, hab, hbc]
  have hr : a.length = (conjunction b c).length := by rw [length_conjunction hbc, hab]
  refine buffer_ext (by rw [length_conjunction hl, length_conjunction hab, length_conjunction hr]) fun i _ => ?_
  rw [bit_conjunction hl, bit_conjunction hab, bit_conjunction hr, bit_conjunction hbc, Bool.and_assoc]

theorem disjunction_assoc (hab : a.length = b.length) (hbc : b.length = c.length) :
    disjunction (disjunction a b) c = disjunction a (disjunction b c) := by
  have hl : (disjunction a b).length = c.length := by rw [length_disjunction hab, hab, hbc]
  have hr : a.length = (disjunction b c).length := by rw [length_disjunction hbc, hab]
  refine buffer_ext (by rw [length_disjunction hl, length_disjunction hab, length_disjunction hr]) fun i _ => ?_
  rw [bit_disjunction hl, bit_disjunction hab, bit_disjunction hr, bit_disjunction hbc, Bool.or_assoc]

/-! ## Setting bits -/

/-- 42_bitops.md R72: SETBIT is OR with the buffer whose one set bit is at the position. -/
theorem withBit1_eq_disjunction {p : Nat} (hp : p < 8 * b.length) :
    withBit1 b p = disjunction b (withBit1 (zeros b.length) p) := by
  have hlen : b.length = (withBit1 (zeros b.length) p).length := by simp
  refine buffer_ext (by rw [length_withBit1, length_disjunction hlen]) fun i _ => ?_
  rw [bit_disjunction hlen, bit_withBit1 i hp, bit_withBit1 i (by simpa using hp), bit_zeros, Bool.false_or]

theorem withBit1_withBit1 {p : Nat} (hp : p < 8 * b.length) : withBit1 (withBit1 b p) p = withBit1 b p := by
  refine buffer_ext (length_withBit1 _ _) fun i _ => ?_
  rw [bit_withBit1 i (by simpa using hp), bit_withBit1 i hp, Bool.or_assoc, Bool.or_self]

/-- Which bits are forced does not depend on the order of the positions. -/
theorem setBits_perm {l₁ l₂ : List Nat} (hperm : l₁.Perm l₂) (h : ∀ p ∈ l₁, p < 8 * b.length) :
    setBits b l₁ = setBits b l₂ := by
  refine buffer_ext (by simp) fun i _ => ?_
  rw [bit_setBits l₁ i h, bit_setBits l₂ i fun p hp => h p (hperm.mem_iff.2 hp), decide_eq_decide.2 hperm.mem_iff]

/-- 42_bitops.md R72: the positions below n lie in the buffer of the key. -/
theorem prefixMask_eq_setBits_of_perm {k w n : Nat} {order : List Nat} (hn : n ≤ k * w)
    (hperm : order.Perm (List.range n)) : prefixMask k w n = setBits (zeros (Config.keyLen k w)) order := by
  have hlen := le_keyLen k w
  refine setBits_perm hperm.symm fun p hp => ?_
  have hpn := List.mem_range.1 hp
  rw [length_zeros]
  omega

/-! ## A success with a buffer -/

variable {f : CwFields} {s : State} {q : Request} {rest : List Request}

/-- The result buffer of a response written out. -/
theorem okBuffer_eq (b : Buffer) : okBuffer b = { status := 0x00, r := b, y := #v[0, 0, 0], flag := false } := rfl

theorem exec_of_okBuffer {i : Instr} (hport : s.requests = q :: rest) (h : responseOf i q = okBuffer b) :
    exec i s = .next { requests := rest, responses := s.responses ++ [okBuffer b] } := by
  rw [exec_of_requests i hport, h]

theorem exec_not_of_requests (hport : s.requests = q :: rest) (hpa : f.pa = true) :
    exec (.bufNot f) s = .next { requests := rest, responses := s.responses ++ [okBuffer (complement q.a)] } :=
  exec_of_okBuffer hport (notResponse_ok hpa)

theorem exec_and_of_requests (hport : s.requests = q :: rest) (hpa : f.pa = true) (hpb : f.pb = true)
    (hlen : q.a.length = q.b.length) :
    exec (.bufAnd f) s = .next { requests := rest, responses := s.responses ++ [okBuffer (conjunction q.a q.b)] } :=
  exec_of_okBuffer hport (andResponse_ok hpa hpb hlen)

theorem exec_or_of_requests (hport : s.requests = q :: rest) (hpa : f.pa = true) (hpb : f.pb = true)
    (hlen : q.a.length = q.b.length) :
    exec (.bufOr f) s = .next { requests := rest, responses := s.responses ++ [okBuffer (disjunction q.a q.b)] } :=
  exec_of_okBuffer hport (orResponse_ok hpa hpb hlen)

/-! ## The statements -/

/-- Settles O35: the result is the bytewise complement. -/
theorem notComplementsEachByte : Obligations.NotComplementsEachByte := by
  intro f s q rest hport hpa
  refine ⟨_, exec_not_of_requests hport hpa, rfl, rfl, rfl, length_complement q.a, fun j v hv => ⟨~~~v, ?_, ?_⟩⟩
  · rw [okBuffer_r, getElem?_complement, hv, Option.map_some]
  · exact BitVec.toNat_not

/-- Settles O36: the results are the conjunction and the disjunction, known by their bits. -/
theorem andOrCombineBitByBit : Obligations.AndOrCombineBitByBit := by
  intro f s q rest hport hpa hpb hlen
  exact ⟨⟨_, exec_and_of_requests hport hpa hpb hlen, rfl, rfl, rfl, length_conjunction hlen, bit_conjunction hlen⟩,
    ⟨_, exec_or_of_requests hport hpa hpb hlen, rfl, rfl, rfl, length_disjunction hlen, bit_disjunction hlen⟩⟩

/-- Settles O37: bit i of the result is the operand's or the one at the position. -/
theorem setBitForcesOneBit : Obligations.SetBitForcesOneBit := by
  intro f s q rest pos hport hpa harg hpos
  have hresponse := setBitResponse_ok hpa (bitPosition_eq_some.2 ⟨hpos, harg⟩)
  refine ⟨_, exec_of_okBuffer hport hresponse, rfl, rfl, rfl, length_withBit1 q.a pos, ?_, fun i hi => ?_,
    fun j hj => getElem?_withBit1_of_ne q.a hj⟩
  · rw [okBuffer_r, bit_withBit1 pos hpos, beq_self_eq_true, Bool.or_true]
  · rw [okBuffer_r, bit_withBit1 i hpos, beq_false_of_ne hi, Bool.or_false]

/-- Settles O38: the result is the three buffers end to end. -/
theorem concatPlacesBuffersInOrder : Obligations.ConcatPlacesBuffersInOrder := by
  intro f s q rest hport hpa hpb hpc
  exact ⟨_, exec_of_okBuffer hport (concatResponse_ok hpa hpb hpc), rfl, rfl, rfl, length_join3 q.a q.b q.c,
    fun j _ => getElem?_join3 q.a q.b q.c j⟩

/-- Settles O39: the first answer is the complement, and the complement of the complement is the buffer. -/
theorem complementLaw : Obligations.ComplementLaw := by
  intro f s s' q q' rest rest' t rsp hpa hport hport' hexec hrsp hbuf
  obtain rfl := Host.Outcome.next.inj ((exec_not_of_requests hport hpa).symm.trans hexec)
  have hfirst : okBuffer (complement q.a) = rsp := by simpa using hrsp
  rw [exec_not_of_requests hport' hpa, hbuf, ← hfirst, okBuffer_r, complement_complement, okBuffer_eq]

/-- Settles O40: a bit with 1 under AND, or with 0 under OR, is the bit. -/
theorem andOrIdentity : Obligations.AndOrIdentity := by
  intro f s q rest hport hpa hpb
  refine ⟨fun hb => ?_, fun hb => ?_⟩
  · rw [exec_and_of_requests hport hpa hpb (by rw [hb, length_ones]), hb, conjunction_ones, okBuffer_eq]
  · rw [exec_or_of_requests hport hpa hpb (by rw [hb, length_zeros]), hb, disjunction_zeros, okBuffer_eq]

/-- Settles O41: the Boolean identities of each bit, and the mask as a set of positions. -/
theorem bitwiseIdentities : Obligations.BitwiseIdentities :=
  ⟨fun b => ⟨conjunction_self b, disjunction_self b, conjunction_complement b, disjunction_complement b⟩,
    fun a b _ hab hbc => ⟨conjunction_comm a b, disjunction_comm a b, conjunction_assoc hab hbc,
      disjunction_assoc hab hbc⟩,
    fun _ _ hp => ⟨withBit1_eq_disjunction hp, withBit1_withBit1 hp⟩,
    fun _ _ _ _ _ hn hperm => prefixMask_eq_setBits_of_perm hn hperm⟩

end Sys2Proof.Machine
end

section
/-! Settles O10, O12 and O13: the response of each command as its checks in the priority order of 60_exceptions.md R83,
from which its STATUS, and the checks that raise a condition, are read off. -/

namespace Sys2Proof.Machine

variable {f : CwFields} {q : Request}

/-! ## Each command is its checks in order, then its own result -/

theorem prefixLength_scalar_of_invalid (h : q.arg.toInt < 1 ∨ q.arg.toInt > 96) :
    prefixLength Config.K Config.W (scalar q) = none :=
  if_pos h

theorem prefixLength_scalar_of_valid (h : ¬ (q.arg.toInt < 1 ∨ q.arg.toInt > 96)) :
    prefixLength Config.K Config.W (scalar q) = some q.arg.toInt.toNat :=
  if_neg h

theorem encodeResponse_eq_checks : encodeResponse f q =
    if f.nc ≠ 3 then raise .invalidArity else okBuffer (interleave 3 32 (lane q)) := rfl

theorem decodeResponse_eq_checks : decodeResponse f q =
    if f.pa = false then raise .nullArgument
    else if q.a.length ≠ 12 then raise .outOfBandKeyLength
    else okLanes (deinterleave 3 32 q.a) := by
  cases hpa : f.pa <;> simp only [decodeResponse, operand, present, hpa] <;> rfl

theorem makeMaskResponse_eq_checks : makeMaskResponse q =
    if q.arg.toInt < 1 ∨ q.arg.toInt > 96 then raise .invalidPrefixLength
    else okBuffer (prefixMask 3 32 q.arg.toInt.toNat) := by
  by_cases hn : q.arg.toInt < 1 ∨ q.arg.toInt > 96
  · rw [makeMaskResponse, prefixLength_scalar_of_invalid hn, if_pos hn]
  · rw [makeMaskResponse, prefixLength_scalar_of_valid hn, if_neg hn]

theorem matchResponse_eq_checks : matchResponse f q =
    if f.pa = false ∨ f.pb = false then raise .nullArgument
    else if q.arg.toInt < 1 ∨ q.arg.toInt > 96 then raise .invalidPrefixLength
    else if q.a.length < 12 ∨ q.b.length < 12 then raise .bufferTooShort
    else okFlag (matchFlag 3 32 q.a q.arg.toInt.toNat q.b) := by
  cases hpa : f.pa <;> cases hpb : f.pb <;> simp only [matchResponse, operand, present, hpa, hpb]
  case true.true =>
    by_cases hn : q.arg.toInt < 1 ∨ q.arg.toInt > 96
    · rw [prefixLength_scalar_of_invalid hn, if_pos hn]; rfl
    · rw [prefixLength_scalar_of_valid hn, if_neg hn]; rfl
  all_goals rfl

theorem renderResponse_eq_checks : renderResponse f q =
    if f.pa = false then raise .nullArgument
    else if q.arg.toInt < 1 ∨ q.arg.toInt > 96 then raise .invalidPrefixLength
    else if q.a.length ≠ 12 then raise .outOfBandKeyLength
    else okBuffer (renderKey 3 32 q.a q.arg.toInt.toNat) := by
  cases hpa : f.pa <;> simp only [renderResponse, operand, present, hpa]
  · rfl
  · by_cases hn : q.arg.toInt < 1 ∨ q.arg.toInt > 96
    · rw [prefixLength_scalar_of_invalid hn, if_pos hn]; rfl
    · rw [prefixLength_scalar_of_valid hn, if_neg hn]; rfl

theorem notResponse_eq_checks : notResponse f q =
    if f.pa = false then raise .nullArgument else okBuffer (complement q.a) := by
  cases hpa : f.pa <;> simp only [notResponse, operand, present, hpa] <;> rfl

theorem andResponse_eq_checks : andResponse f q =
    if f.pa = false ∨ f.pb = false then raise .nullArgument
    else if q.a.length ≠ q.b.length then raise .lengthMismatch
    else okBuffer (conjunction q.a q.b) := by
  cases hpa : f.pa <;> cases hpb : f.pb <;> simp only [andResponse, operand, present, hpa, hpb] <;> rfl

theorem orResponse_eq_checks : orResponse f q =
    if f.pa = false ∨ f.pb = false then raise .nullArgument
    else if q.a.length ≠ q.b.length then raise .lengthMismatch
    else okBuffer (disjunction q.a q.b) := by
  cases hpa : f.pa <;> cases hpb : f.pb <;> simp only [orResponse, operand, present, hpa, hpb] <;> rfl

theorem setBitResponse_eq_checks : setBitResponse f q =
    if f.pa = false then raise .nullArgument
    else if q.arg.toInt < 0 ∨ q.arg.toInt ≥ 8 * (q.a.length : Int) then raise .bitPositionOutOfRange
    else okBuffer (withBit1 q.a q.arg.toInt.toNat) := by
  cases hpa : f.pa <;> simp only [setBitResponse, operand, present, hpa]
  · rfl
  · by_cases hpos : q.arg.toInt < 0 ∨ q.arg.toInt ≥ 8 * (q.a.length : Int)
    · have hnone : bitPosition q.a.length (scalar q) = none := if_pos hpos
      simp only [slotBytes, reduceIte, hnone, if_pos hpos]; rfl
    · have hsome : bitPosition q.a.length (scalar q) = some q.arg.toInt.toNat := if_neg hpos
      simp only [slotBytes, reduceIte, hsome, if_neg hpos]; rfl

theorem concatResponse_eq_checks : concatResponse f q =
    if f.pa = false ∨ f.pb = false ∨ f.pc = false then raise .nullArgument
    else okBuffer (join3 q.a q.b q.c) := by
  cases hpa : f.pa <;> cases hpb : f.pb <;> cases hpc : f.pc <;>
    simp only [concatResponse, operand, present, hpa, hpb, hpc] <;> rfl

/-- A check that fails answers with its condition's STATUS, one that passes leaves it to the rest. -/
theorem status_of_check {p : Prop} [Decidable p] (e : Condition) (rsp : Response) :
    (if p then raise e else rsp).status = if p then statusCode e else rsp.status :=
  apply_ite Response.status p (raise e) rsp

/-! ## The statements -/

/-- Settles O10: the unit keeps nothing of the failing request, so the one behind it is answered by `respond` alone. -/
theorem errorLeavesNoTrace : Obligations.ErrorLeavesNoTrace := by
  intro s q q' rest hport _
  refine ⟨{ requests := q' :: rest, responses := s.responses ++ [respond q] }, respond q', step_of_requests hport, ?_,
    step_of_requests rfl⟩
  rw [step_of_requests rfl, List.append_assoc, List.singleton_append]

/-- Settles O12: an illegal word is answered before any check, and a command's STATUS is that of its checks in order. -/
theorem statusIsTheFirstFailingCheck : Obligations.StatusIsTheFirstFailingCheck := by
  refine ⟨fun s q rest hport => ⟨fun e he => ?_, fun i hi => ?_⟩, fun i s q rest hport => ?_⟩
  · exact ⟨respond q, step_of_requests hport, respond_of_decode_error he⟩
  · rw [step_of_requests hport, exec_of_requests i hport, respond_of_decode_ok hi]
  · refine ⟨responseOf i q, exec_of_requests i hport, (errorIsStatusAlone_responseOf i q).2, ?_⟩
    cases i with
    | encode f => rw [responseOf, encodeResponse_eq_checks, status_of_check]; rfl
    | decode f => rw [responseOf, decodeResponse_eq_checks, status_of_check, status_of_check]; rfl
    | makeMask f => rw [responseOf, makeMaskResponse_eq_checks, status_of_check]; rfl
    | matchPrefix f =>
      rw [responseOf, matchResponse_eq_checks, status_of_check, status_of_check, status_of_check]; rfl
    | render f => rw [responseOf, renderResponse_eq_checks, status_of_check, status_of_check, status_of_check]; rfl
    | bufNot f => rw [responseOf, notResponse_eq_checks, status_of_check]; rfl
    | bufAnd f => rw [responseOf, andResponse_eq_checks, status_of_check, status_of_check]; rfl
    | bufOr f => rw [responseOf, orResponse_eq_checks, status_of_check, status_of_check]; rfl
    | setBit f => rw [responseOf, setBitResponse_eq_checks, status_of_check, status_of_check]; rfl
    | concat f => rw [responseOf, concatResponse_eq_checks, status_of_check]; rfl

/-- Settles O13 from O12: on each branch of a command's checks the STATUS is known and so is which check failed. Where
`NullArgument` stands before a condition of its own (AND, OR, SETBIT), that condition needs the slots present. -/
theorem conditionsRaisedExactlyWhen : Obligations.ConditionsRaisedExactlyWhen := by
  intro i s q rest hport
  obtain ⟨rsp, hexec, -, hstatus⟩ := statusIsTheFirstFailingCheck.2 i s q rest hport
  refine ⟨rsp, hexec, ?_⟩
  cases i with
  | encode f | decode f | makeMask f | matchPrefix f | render f | bufNot f | concat f =>
    dsimp only at hstatus
    split_ifs at hstatus <;> simp [*]
  | bufAnd f | bufOr f =>
    dsimp only at hstatus
    split_ifs at hstatus with hnull hlen
    · have hnot : ¬ (f.pa = true ∧ f.pb = true ∧ q.a.length ≠ q.b.length) := by
        rcases hnull with h | h <;> simp [h]
      simpa [hstatus, hnull] using hnot
    · simpa [hstatus, hlen] using hnull
    · simp [*]
  | setBit f =>
    dsimp only at hstatus
    split_ifs at hstatus with hnull hpos <;> simp [*]

end Sys2Proof.Machine
end

section
/-! Settles O11 and O45: reset with requests in flight, and results the host must not read. A line that assembles is
expressible (O44), and every name an expressible line reads is of a response without an error. -/

namespace Sys2Proof.Machine

/-! ## Reset -/

/-- Settles O11: after reset the request issued is the only one at the port. -/
theorem resetDropsRequestsInFlight : Obligations.ResetDropsRequestsInFlight :=
  fun _ _ => ⟨rfl, step_of_requests rfl⟩

/-! ## The names a line reads -/

variable {lmax : Nat} {vars : HostVars} {n : HostName}

/-- The host has a result under the name: a response without an error (70_reset_and_hazards.md R97). -/
def HasResult (vars : HostVars) (n : HostName) : Prop := ∃ rsp, namedResult vars n = .ok rsp

theorem not_hasResult_of_failed {rsp : Response} (hlookup : vars.lookup n = some rsp) (hfail : rsp.status ≠ 0x00) :
    ¬ HasResult vars n := by
  rintro ⟨rsp', hok⟩
  obtain ⟨hlookup', hstatus⟩ := namedResult_eq_ok.1 hok
  cases hlookup.symm.trans hlookup'
  exact hfail hstatus

theorem hasResult_of_flagOf {b : Bool} (h : flagOf vars n = .ok b) : HasResult vars n := by
  unfold flagOf at h
  split at h
  · next rsp hrsp => exact ⟨rsp, hrsp⟩
  · cases h

theorem hasResult_of_carries {arg : BufferArg} (h : Carries lmax vars arg) (hn : n ∈ bufferNames arg) :
    HasResult vars n := by
  obtain ⟨isPresent, bytes, hholds, -⟩ := h
  cases arg with
  | literal b | null => cases hn
  | resultOf m =>
    cases List.mem_singleton.1 hn
    obtain ⟨-, rsp, hlookup, hstatus, -⟩ := hholds
    exact ⟨rsp, namedResult_eq_ok.2 ⟨hlookup, hstatus⟩⟩

theorem hasResult_of_holdsLane {arg : LaneArg} {v : Config.Lane} (h : HoldsLane vars arg v) (hn : n ∈ laneNames arg) :
    HasResult vars n := by
  cases arg with
  | number m => cases hn
  | resultOf m d =>
    cases List.mem_singleton.1 hn
    obtain ⟨rsp, hlookup, hstatus, -⟩ := h
    exact ⟨rsp, namedResult_eq_ok.2 ⟨hlookup, hstatus⟩⟩

/-- By the line's command: each name comes from one of its arguments, which a request can carry. -/
theorem hasResult_of_expressible {c : Command} (h : Expressible lmax vars c) (hn : n ∈ namesRead c) :
    HasResult vars n := by
  cases c with
  | encode xs =>
    obtain ⟨x, hx, hnx⟩ := List.mem_flatMap.1 hn
    obtain ⟨v, hv⟩ := h.2 x hx
    exact hasResult_of_holdsLane hv hnx
  | makeMask m => cases hn
  | decode a | bufNot a => exact hasResult_of_carries h hn
  | render a m | setBit a m => exact hasResult_of_carries h.1 hn
  | bufAnd a b | bufOr a b =>
    obtain ⟨ha, hb⟩ := h
    exact (List.mem_append.1 hn).elim (hasResult_of_carries ha) (hasResult_of_carries hb)
  | matchPrefix a m b =>
    obtain ⟨ha, -, hb⟩ := h
    exact (List.mem_append.1 hn).elim (hasResult_of_carries ha) (hasResult_of_carries hb)
  | concat a b c =>
    obtain ⟨ha, hb, hc⟩ := h
    rcases List.mem_append.1 hn with hn | hn
    · exact (List.mem_append.1 hn).elim (hasResult_of_carries ha) (hasResult_of_carries hb)
    · exact hasResult_of_carries hc hn

/-- Settles O45: an error response is its STATUS alone (O14), and its name has no result, while a FLAG read and a line
that assembles have one for every name they read. -/
theorem failedResultIsNotRead : Obligations.FailedResultIsNotRead := by
  refine ⟨fun q => (errorIsStatusAlone_respond q).2, fun lmax vars n rsp hlookup hfail => ?_⟩
  have hnone := not_hasResult_of_failed hlookup hfail
  refine ⟨fun b hb => hnone (hasResult_of_flagOf hb), fun c q hq hn => ?_⟩
  exact hnone (hasResult_of_expressible ((expressibleLinesAssemble lmax vars c).1 ⟨q, hq⟩) hn)

end Sys2Proof.Machine
end
